-- ==== Sys2Proof/Word.lean ====
section
/-! DEFINITION. The units of data that cross the interface of C2DEC or sit in its delay bank
(spec/00_scope.md R9, spec/20_memory.md R40). -/

namespace Sys2Proof

/-- A byte, also called a symbol's data byte: 8 bits, bit 0 the least significant (R9, R45). -/
abbrev Byte := BitVec 8

/-- The field-generator polynomial as the spec writes it: a 9-bit number, bit `b` the coefficient
of `x^b` (R90). -/
abbrev Poly9 := BitVec 9

/-- A command or response frame: a finite sequence of bytes whose length the receiver knows (R60). -/
abbrev Frame := List Byte

/-- A symbol: one data byte and one erasure flag, `true` meaning erased (R13, R21). -/
structure Symbol where
  d : Byte
  f : Bool
deriving DecidableEq, Repr

/-- The content of a vacant cell after a clear: `(0x00, 0)` (R31, R151). -/
def Symbol.vacant : Symbol := ⟨0#8, false⟩

/-- A missing position of a flush codeword: `(0x00, 1)` (R150). -/
def Symbol.missing : Symbol := ⟨0#8, true⟩

/-- The 9-bit form of a cell, `{f, d[7:0]}` (R21). -/
def Symbol.pack (x : Symbol) : BitVec 9 := BitVec.ofBool x.f ++ x.d

end Sys2Proof
end

