-- ==== Sys2Proof/Config.lean ====
section
/-! DEFINITION. The implementation parameters of C2DEC, fixed at construction
(spec/00_scope.md R6). -/

namespace Sys2Proof

/-- The policy for the data bytes of a `Failed` or `Flushed` codeword (R6, R163). -/
inductive FailPolicy where
  | passThrough
  | zeroFill
deriving DecidableEq, Repr

/-- The parameter tuple `C2DEC(N_SYM, N_PAR, D, GF_POLY, FCR, FAIL_POLICY, QCAP, CW)` (R2, R6).
`qcap = none` is `QCAP = INF`. -/
structure Config where
  nSym : Nat
  nPar : Nat
  depth : List Nat
  gfPoly : Poly9
  fcr : Nat
  failPolicy : FailPolicy
  qcap : Option Nat
  cw : Nat
deriving DecidableEq, Repr

/-- The defaults of R6.  The two parameters R6 leaves OPEN take `PassThrough` and `INF` here, the
values spec/95_test_vectors.md takes where it states none (log entry 2, DESIGN CHOICE: every
statement quantifies over all configurations instead). -/
def Config.default : Config where
  nSym := 28
  nPar := 4
  depth := (List.range 28).map (4 * ·)
  gfPoly := 0x11D#9
  fcr := 0
  failPolicy := .passThrough
  qcap := none
  cw := 32

end Sys2Proof
end

