-- ==== Sys2Proof/Machine/Gf.lean ====
section
/-! DEFINITION. Arithmetic of GF(2^8) and of polynomials over it (spec/40_gf_arithmetic.md).
Every operation takes the field polynomial `P`; a polynomial over the field is the list of its
coefficients, index = degree (spec/00_scope.md R11). -/

namespace Sys2Proof.Machine

/-- `GFADD`: bitwise exclusive-or; subtraction is the same operation (R91). -/
def gfAdd (a b : Byte) : Byte := a ^^^ b

/-- One doubling of the temporary of R92: shift left in 9 bits, and reduce by `P` if bit 8 is set. -/
def xtime (P : Poly9) (t : Byte) : Byte :=
  let u : BitVec 9 := t.setWidth 9 <<< 1
  (if u.getLsbD 8 then u ^^^ P else u).setWidth 8

/-- `GFMUL`: shift-and-add with reduction, one round per bit of `b`, the pair being `(acc, t)` (R92). -/
def gfMul (P : Poly9) (a b : Byte) : Byte :=
  ((List.range 8).foldl
    (fun (x : Byte × Byte) k => (if b.getLsbD k then gfAdd x.1 x.2 else x.1, xtime P x.2))
    (0#8, a)).1

/-- Powers with a natural exponent, by repeated multiplication (R93, R96).  That `0x00` to the power
0 is `0x01` here is the model's choice, as R96 gives no value there: no rule takes that power and no
statement rests on it (log entry 16, DESIGN CHOICE). -/
def gfPow (P : Poly9) (a : Byte) : Nat → Byte
  | 0 => 1#8
  | e + 1 => gfMul P (gfPow P a e) a

/-- The element `alpha = 0x02` (R93). -/
def alpha : Byte := 0x02#8

/-- `alpha^e`, the exponent taken modulo 255 (R93). -/
def alphaPow (P : Poly9) (e : Nat) : Byte := gfPow P alpha (e % 255)

/-- `alpha^e` for every integer `e`, negative included, with `e mod 255` in `0..254` (R93). -/
def alphaPowInt (P : Poly9) (e : Int) : Byte := gfPow P alpha (e % 255).toNat

/-- `log a`: the `e` in `0..254` with `alpha^e = a`; it does not exist for `0x00` (R93). -/
def gfLog (P : Poly9) (a : Byte) : Option Nat :=
  (List.range 255).find? fun e => alphaPow P e == a

/-- `alpha` is primitive under `P`: `0x02` has multiplicative order 255 (R7, R93). -/
def primitive (P : Poly9) : Bool :=
  gfPow P alpha 255 == 1#8 && (List.range 254).all fun e => gfPow P alpha (e + 1) != 1#8

/-- `GFINV`: `a^254` by 7 squarings and 6 multiplications.  The argument proof is R94's: no value
is given for `0x00`. -/
def gfInv (P : Poly9) (a : Byte) (_ : a ≠ 0#8) : Byte :=
  let a2 := gfMul P a a
  let a4 := gfMul P a2 a2
  let a8 := gfMul P a4 a4
  let a16 := gfMul P a8 a8
  let a32 := gfMul P a16 a16
  let a64 := gfMul P a32 a32
  let a128 := gfMul P a64 a64
  gfMul P (gfMul P (gfMul P (gfMul P (gfMul P (gfMul P a2 a4) a8) a16) a32) a64) a128

/-- `GFDIV`: `a / b = a * inv(b)`, for `b ≠ 0x00` only (R95). -/
def gfDiv (P : Poly9) (a b : Byte) (h : b ≠ 0#8) : Byte := gfMul P a (gfInv P b h)

/-- `GFPOW` for an integer exponent: `alpha^(log(a) * e)`; `0x00^e` is `0x00` for `e > 0` and has no
value for `e ≤ 0` (R96). -/
def gfPowInt (P : Poly9) (a : Byte) (e : Int) : Option Byte :=
  if a = 0#8 then (if 0 < e then some 0#8 else none)
  else (gfLog P a).map fun l => alphaPowInt P (l * e)

/-- The field sum of a list of bytes, written SUM in the spec (R11). -/
def gfSum (l : List Byte) : Byte := l.foldl gfAdd 0#8

/-- `PEVAL`: Horner's rule from the highest coefficient down; the empty polynomial gives `0x00` (R97). -/
def polyEval (P : Poly9) (p : List Byte) (x : Byte) : Byte :=
  p.foldr (fun coef acc => gfAdd (gfMul P acc x) coef) 0#8

/-- Coefficient `t` of a product: SUM over `l + s = t` of `p[l] * q[s]` (R98). -/
def polyCoeff (P : Poly9) (p q : List Byte) (t : Nat) : Byte :=
  gfSum ((List.range (t + 1)).map fun l => gfMul P (p.getD l 0#8) (q.getD (t - l) 0#8))

/-- `PMUL`: the product, of degree `deg p + deg q` (R98). -/
def polyMul (P : Poly9) (p q : List Byte) : List Byte :=
  (List.range (p.length + q.length - 1)).map (polyCoeff P p q)

/-- The product modulo `x^m`: coefficients `0..m-1` (R98). -/
def polyMulMod (P : Poly9) (p q : List Byte) (m : Nat) : List Byte :=
  (List.range m).map (polyCoeff P p q)

/-- `PDERIV`: `p'[l-1]` is `p[l]` for odd `l` and `0x00` for even `l` (R99). -/
def polyDeriv (p : List Byte) : List Byte :=
  (List.range (p.length - 1)).map fun k => if k % 2 = 0 then p.getD (k + 1) 0#8 else 0#8

/-- The largest index with a non-zero coefficient (R118); 0 when there is none. -/
def polyDegree (p : List Byte) : Nat :=
  (List.range p.length).foldl (fun dg l => if p.getD l 0#8 = 0#8 then dg else l) 0

end Sys2Proof.Machine
end

