-- ==== Sys2Proof/Machine/Derived.lean ====
section
/-! DEFINITION. The derived constants of a configuration and when a configuration is well-formed
(spec/00_scope.md R7). -/

namespace Sys2Proof

/-- `k = n - r`, the number of non-parity symbols (R7). -/
def Config.k (c : Config) : Nat := c.nSym - c.nPar

/-- `D[i]` (R6). -/
def Config.d (c : Config) (i : Nat) : Nat := c.depth.getD i 0

/-- `Dmax`, the largest delay (R7). -/
def Config.dmax (c : Config) : Nat := c.depth.foldl max 0

/-- `L[i] = Dmax - D[i]`, the number of cells of delay line `i` (R7, R141). -/
def Config.lineLen (c : Config) (i : Nat) : Nat := c.dmax - c.d i

/-- `BANK_SIZE`, the sum of all `L[i]` (R7). -/
def Config.bankSize (c : Config) : Nat := ((List.range c.nSym).map c.lineLen).sum

/-- `CMAX = 2^CW - 1` (R7, R26). -/
def Config.cmax (c : Config) : Nat := 2 ^ c.cw - 1

/-- `CB = ceil(CW / 8)`, the bytes of one counter in a response (R67). -/
def Config.counterBytes (c : Config) : Nat := (c.cw + 7) / 8

/-- A finite `QCAP` is at least `n` (R7). -/
def Config.qcapOk (c : Config) : Bool :=
  match c.qcap with
  | none => true
  | some q => c.nSym ≤ q

/-- Well-formedness of a configuration, clause by clause as R7 lists it; `min D = 0` is "0 occurs
in D", and `P` has no bit above 8 by its type. -/
def Config.wf (c : Config) : Bool :=
  (2 ≤ c.nSym && c.nSym ≤ 255) && (1 ≤ c.nPar && c.nPar ≤ c.nSym - 1)
    && (c.depth.length == c.nSym && c.depth.contains 0)
    && (c.gfPoly.getLsbD 8 && Machine.primitive c.gfPoly)
    && c.fcr ≤ 254 && c.qcapOk && 1 ≤ c.cw

end Sys2Proof
end

