-- ==== Sys2Proof/Syntax.lean ====
section
/-! DEFINITION. The eight commands of C2DEC and the six status codes (spec/30_encoding.md R61,
spec/60_exceptions.md R200). -/

namespace Sys2Proof

/-- One constructor per row of spec/opcode_table.json (R61).  `pushC1` carries the two sequences a
format P frame carries, each of its own length (R63); whether both lengths are `n` is asked when
the command is performed, since it depends on the configuration (log entry 3). -/
inductive Instr where
  | pushC1 (data : List Byte) (flags : List Bool)
  | pullData
  | pullErr
  | flush
  | resetStats
  | getStats
  | reportStatus
  | reset
deriving DecidableEq, Repr

/-- The status byte of a response frame, by name (R200). -/
inductive Status where
  | ok
  | errOpcode
  | errFormat
  | errLength
  | errState
  | errFull
deriving DecidableEq, Repr

end Sys2Proof
end

