-- ==== Sys2Proof/Machine/State.lean ====
section
/-! DEFINITION. The architectural state of one C2DEC (spec/10_state.md R20), the command and
response streams of its transaction-level interface, and the reset state (R31). -/

namespace Sys2Proof.Machine

/-- `RUN` from reset until a flush is accepted, `FLUSHED` from then until a reset (R24). -/
inductive Phase where
  | run
  | flushed
deriving DecidableEq, Repr

/-- The four statistics counters, unsigned `CW`-bit registers that saturate at `CMAX` (R26). -/
structure Counters where
  passed : Nat
  corrected : Nat
  failed : Nat
  flushed : Nat
deriving DecidableEq, Repr

/-- All four counters at zero (R31, R165). -/
def Counters.zero : Counters := ⟨0, 0, 0, 0⟩

/-- What follows the status byte of a response: nothing, a pulled FIFO with its count, or the four
counters (R67).  The elements are kept as they are, so that a pull whose count has no 32-bit form
is still defined (93_implementation_defined.md U8). -/
inductive Payload where
  | none
  | data (s : List Byte)
  | flags (s : List Bool)
  | counters (c : Counters)
deriving DecidableEq, Repr

/-- A response frame, `[status] ++ payload` (R67). -/
structure Response where
  status : Status
  payload : Payload
deriving DecidableEq, Repr

/-- The block has no fatal path: "There is no fatal/unrecoverable error path in this core"
(R208), so nothing raises a fault and the type has no constructor.  Refusals of the spec (R200) are
responses, not faults. -/
inductive Fault where
deriving DecidableEq, Repr

/-- Reasons the model itself would decline an instruction. -/
inductive Refusal where
  /-- Raised by an arm of `exec` that has no meaning; no arm does.  Safe: nothing is provable of a
  state that does not come about. -/
  | notModelled (mnemonic : String)
deriving DecidableEq, Repr

/-- One instance of C2DEC.  `cfg` and `cfgOk` are the construction parameters, which no command
writes (R6, R30; log entry 1).  `cells` to `qe` are the tuple `(cell, fill, phase, cnt, QD, QE)` of
R20.  `inbox`, `outbox` and `diag` are the interface: command frames not yet taken, oldest first,
response frames given, oldest first (R60), and the records written to the diagnostic channel
(R167), log entries 4 and 5. -/
structure State where
  cfg : Config
  cfgOk : cfg.wf = true
  /-- Delay line `i` is `cells[i]`, newest stage first (R21). -/
  cells : List (List Symbol)
  /-- Accepted pushes since reset, stopping at `Dmax` (R23). -/
  fill : Nat
  phase : Phase
  cnt : Counters
  /-- Output FIFO of data bytes, oldest first (R27). -/
  qd : List Byte
  /-- Output FIFO of error flags, oldest first (R28). -/
  qe : List Bool
  inbox : List Frame
  outbox : List Response
  diag : List Counters
deriving DecidableEq, Repr

/-- The state after power-on reset of a block built with `cfg` (R31, R230 a). -/
def State.powerOn (cfg : Config) (h : cfg.wf = true) : State where
  cfg := cfg
  cfgOk := h
  cells := (List.range cfg.nSym).map fun i => List.replicate (cfg.lineLen i) Symbol.vacant
  fill := 0
  phase := .run
  cnt := Counters.zero
  qd := []
  qe := []
  inbox := []
  outbox := []
  diag := []

/-- The default configuration is well-formed (R7). -/
theorem defaultConfig_wf : Config.default.wf = true := by decide +kernel

/-- The machine right after reset, built with the default configuration (R6, R31). -/
def State.reset : State := State.powerOn Config.default defaultConfig_wf

end Sys2Proof.Machine
end

