-- ==== Sys2Proof/Machine/Ops.lean ====
section
/-! DEFINITION. The named operations on the state through which every command works
(spec/00_scope.md R12): cells, FIFOs, counters, phase, the response and the refusal. -/

namespace Sys2Proof.Machine

/-- The four outcomes of a C2 codeword (R13, R125, R186). -/
inductive CodewordOutcome where
  | passed
  | corrected
  | failed
  | flushed
deriving DecidableEq, Repr

/-- Delay line `i`, newest stage first (R21). -/
def State.line (s : State) (i : Nat) : List Symbol := s.cells.getD i []

/-- Read of `cell[i][j]` (R12, R21).  Outside the bank, where no rule reads, it gives the vacant
symbol (log entry 7). -/
def State.cell (s : State) (i j : Nat) : Symbol := (s.line i).getD j Symbol.vacant

/-- Append one response frame to the response stream (R60, R67). -/
def State.reply (r : Response) (s : State) : State := { s with outbox := s.outbox ++ [r] }

/-- `respond(OK, payload)`: the command ends normally (R12). -/
def respond (p : Payload) (s : State) : Host.Outcome State Fault Refusal :=
  .next (s.reply ⟨.ok, p⟩)

/-- `raise <Status>`: the command ends, no part of the state of R20 is changed by it, and the
response is the single status byte (R201).  There is nothing to return from (R210). -/
def raise (st : Status) (s : State) : Host.Outcome State Fault Refusal :=
  .next (s.reply ⟨st, .none⟩)

/-- `MemWrite` on both FIFOs: append at the tails (R12, R162, R180). -/
def State.enqueue (od : List Byte) (oe : List Bool) (s : State) : State :=
  { s with qd := s.qd ++ od, qe := s.qe ++ oe }

/-- The data FIFO left empty by `MemRead(QD, all)` (R12, R182). -/
def State.emptyQd (s : State) : State := { s with qd := [] }

/-- The flag FIFO left empty by `MemRead(QE, all)` (R12, R183). -/
def State.emptyQe (s : State) : State := { s with qe := [] }

/-- An increment that saturates at `CMAX` (R26). -/
def saturatingIncr (cmax v : Nat) : Nat := min (v + 1) cmax

/-- The outcome selects the counter that is incremented (R164). -/
def Counters.bump (cmax : Nat) (o : CodewordOutcome) (c : Counters) : Counters :=
  match o with
  | .passed => { c with passed := saturatingIncr cmax c.passed }
  | .corrected => { c with corrected := saturatingIncr cmax c.corrected }
  | .failed => { c with failed := saturatingIncr cmax c.failed }
  | .flushed => { c with flushed := saturatingIncr cmax c.flushed }

/-- Count one emitted codeword (R162, R164). -/
def State.count (o : CodewordOutcome) (s : State) : State :=
  { s with cnt := s.cnt.bump s.cfg.cmax o }

/-- All four counters to zero (R165, R188). -/
def State.clearCounters (s : State) : State := { s with cnt := Counters.zero }

/-- `phase <- X` (R12, R24). -/
def State.setPhase (p : Phase) (s : State) : State := { s with phase := p }

/-- A write to the diagnostic channel (R12, R167). -/
def State.logDiag (s : State) : State := { s with diag := s.diag ++ [s.cnt] }

/-- The next command frame in arrival order and the state without it (R60). -/
def State.takeFrame (s : State) : Option (Frame × State) :=
  match s.inbox with
  | [] => none
  | F :: rest => some (F, { s with inbox := rest })

/-- A command frame placed at the head of the command stream. -/
def State.giveFrame (F : Frame) (s : State) : State := { s with inbox := F :: s.inbox }

/-- Construction of a block: a configuration that is not well-formed is refused (R7, R232). -/
def construct (cfg : Config) : Option State :=
  if h : cfg.wf = true then some (State.powerOn cfg h) else none

end Sys2Proof.Machine
end

