-- ==== Sys2Proof/Machine/Deinterleaver.lean ====
section
/-! DEFINITION. The whole-bank operations of the convolutional de-interleaver
(spec/42_deinterleaver.md R142, R143, R150, R151). -/

namespace Sys2Proof.Machine

/-- `TAP(sym)`: position `i` is the oldest stage of line `i`, or the incoming symbol where the line
has no cells (R142). -/
def State.tap (sym : List Symbol) (s : State) : List Symbol :=
  (List.range s.cfg.nSym).map fun i =>
    if s.cfg.lineLen i = 0 then sym.getD i Symbol.vacant else s.cell i (s.cfg.lineLen i - 1)

/-- Delay line `i` after `SHIFT(sym)`: the new symbol in stage 0, every stage moved up by one, the
oldest dropped; a line of length 0 stores nothing (R143). -/
def State.shiftedLine (sym : List Symbol) (s : State) (i : Nat) : List Symbol :=
  (sym.getD i Symbol.vacant :: s.line i).take (s.cfg.lineLen i)

/-- `SHIFT(sym)` on the whole bank, with `fill <- min(fill + 1, Dmax)` (R143). -/
def State.shift (sym : List Symbol) (s : State) : State :=
  { s with
    cells := (List.range s.cfg.nSym).map (s.shiftedLine sym)
    fill := min (s.fill + 1) s.cfg.dmax }

/-- Position `i` is missing from flush codeword `u` of `F`: `F - 1 - u - D[i] < 0` (R150). -/
def missingAt (cfg : Config) (F u i : Nat) : Bool := F < cfg.d i + u + 1

/-- The symbols of `FTAP(u, F)`: cell `F - 1 - u - D[i]` where that is not negative, else the
missing symbol `(0x00, 1)` (R150). -/
def State.ftap (s : State) (F u : Nat) : List Symbol :=
  (List.range s.cfg.nSym).map fun i =>
    if missingAt s.cfg F u i then Symbol.missing else s.cell i (F - 1 - u - s.cfg.d i)

/-- The set `Miss` of `FTAP(u, F)`, in position order (R150). -/
def ftapMiss (cfg : Config) (F u : Nat) : List Nat :=
  (List.range cfg.nSym).filter (missingAt cfg F u)

/-- `CLEAR`: every cell `(0x00, 0)`, `fill <- 0` (R151). -/
def State.clearBank (s : State) : State :=
  { s with
    cells := (List.range s.cfg.nSym).map fun i => List.replicate (s.cfg.lineLen i) Symbol.vacant
    fill := 0 }

end Sys2Proof.Machine
end

