-- ==== Sys2Proof/Machine/Flags.lean ====
section
/-! DEFINITION. The predicates of the state that the rules use and the block does not store
(spec/10_state.md R22, R29).  The block has no condition codes; its one stored flag is `phase`. -/

namespace Sys2Proof.Machine

/-- The bank is primed: `fill = Dmax` (R23, R29). -/
def State.primed (s : State) : Bool := s.fill == s.cfg.dmax

/-- `room(x)`: both FIFOs can take `x` more elements (R29, R181). -/
def State.room (s : State) (x : Nat) : Bool :=
  match s.cfg.qcap with
  | none => true
  | some q => s.qd.length + x ≤ q && s.qe.length + x ≤ q

/-- `valid(i, j)`: stage `j` holds a symbol pushed since the last reset (R22, R29). -/
def State.valid (s : State) (_i j : Nat) : Bool := j < s.fill

/-- The buffered symbol count, the sum of `min(fill, L[i])` (R22). -/
def State.buffered (s : State) : Nat :=
  ((List.range s.cfg.nSym).map fun i => min s.fill (s.cfg.lineLen i)).sum

end Sys2Proof.Machine
end

