-- ==== Sys2Proof/WellFormed.lean ====
section
/-! DEFINITION. Which terms of `Instr` a command frame can carry, and which of those are well-sized
(spec/30_encoding.md R63). -/

namespace Sys2Proof

/-- A command is well-formed when a frame can carry it: `dlen` and `flen` are bytes, 0..255 (R63). -/
def Instr.wf : Instr → Bool
  | .pushC1 data flags => data.length ≤ 255 && flags.length ≤ 255
  | .pullData => true
  | .pullErr => true
  | .flush => true
  | .resetStats => true
  | .getStats => true
  | .reportStatus => true
  | .reset => true

/-- A command is well-sized for a configuration of `n` symbols when a pushed codeword has `n` data
bytes and `n` flags (R63). -/
def Instr.wellSized (n : Nat) : Instr → Bool
  | .pushC1 data flags => data.length == n && flags.length == n
  | .pullData => true
  | .pullErr => true
  | .flush => true
  | .resetStats => true
  | .getStats => true
  | .reportStatus => true
  | .reset => true

end Sys2Proof
end

