-- ==== Sys2Proof/Decode.lean ====
section
/-! DEFINITION. The decode function from command frames to commands, the encoder, the status codes
and the byte order of response fields (spec/30_encoding.md, spec/60_exceptions.md R200 to R204). -/

namespace Sys2Proof

/-- The opcode byte of each command (R61). -/
def Instr.opcode : Instr → Byte
  | .pushC1 _ _ => 0x01#8
  | .pullData => 0x02#8
  | .pullErr => 0x03#8
  | .flush => 0x04#8
  | .resetStats => 0x05#8
  | .getStats => 0x06#8
  | .reportStatus => 0x07#8
  | .reset => 0x08#8

/-- The command of a format Z opcode, none for every other byte (R61, R62). -/
def formatZ (op : Byte) : Option Instr :=
  match op.toNat with
  | 2 => some .pullData
  | 3 => some .pullErr
  | 4 => some .flush
  | 5 => some .resetStats
  | 6 => some .getStats
  | 7 => some .reportStatus
  | 8 => some .reset
  | _ => none

/-- The rest of a format P frame after its opcode: `dlen`, `flen`, the data bytes, the flag bytes.
The total length is checked first, then that no flag byte is reserved (R63, R64, R69). -/
def decodePush : Frame → Except Status Instr
  | dlen :: flen :: body =>
    if body.length ≠ dlen.toNat + flen.toNat then .error .errFormat
    else if (body.drop dlen.toNat).any (fun b => 1 < b.toNat) then .error .errFormat
    else .ok (.pushC1 (body.take dlen.toNat) ((body.drop dlen.toNat).map (· == 0x01#8)))
  | _ => .error .errFormat

/-- The part of R69's decode function that does not depend on the configuration, total on every
byte sequence: ERR_FORMAT for an empty frame, ERR_OPCODE, ERR_FORMAT for the other causes
(R68, R202, R203). -/
def decode : Frame → Except Status Instr
  | [] => .error .errFormat
  | op :: rest =>
    if op = 0x01#8 then decodePush rest
    else
      match formatZ op with
      | none => .error .errOpcode
      | some i => if rest = [] then .ok i else .error .errFormat

/-- The whole decode function of R69 for codewords of `n` symbols: a well-formed frame that is not
well-sized gives ERR_LENGTH (R204). -/
def decodeFor (n : Nat) (F : Frame) : Except Status Instr :=
  match decode F with
  | .error st => .error st
  | .ok i => if i.wellSized n then .ok i else .error .errLength

/-- The flag byte of a flag: `0x00` or `0x01` (R64). -/
def flagByte (f : Bool) : Byte := if f then 0x01#8 else 0x00#8

/-- The encoder: the frame of a command (R62, R63). -/
def encode (i : Instr) : Frame :=
  match i with
  | .pushC1 data flags =>
    i.opcode :: BitVec.ofNat 8 data.length :: BitVec.ofNat 8 flags.length
      :: (data ++ flags.map flagByte)
  | .pullData => [i.opcode]
  | .pullErr => [i.opcode]
  | .flush => [i.opcode]
  | .resetStats => [i.opcode]
  | .getStats => [i.opcode]
  | .reportStatus => [i.opcode]
  | .reset => [i.opcode]

/-- The status byte (R200). -/
def Status.code : Status → Byte
  | .ok => 0x00#8
  | .errOpcode => 0x01#8
  | .errFormat => 0x02#8
  | .errLength => 0x03#8
  | .errState => 0x04#8
  | .errFull => 0x05#8

/-- `v` as `k` bytes, little-endian: the byte at the lower offset is the less significant (R43). -/
def leBytes (k v : Nat) : List Byte :=
  (List.range k).map fun b => BitVec.ofNat 8 (v / 256 ^ b)

/-- The length a frame's own bytes require: `3 + F[1] + F[2]` for opcode `0x01`, one byte for every
other opcode (R65); absent bytes count as zero. -/
def requiredLength (F : Frame) : Nat :=
  if F.getD 0 0#8 = 0x01#8 then 3 + (F.getD 1 0#8).toNat + (F.getD 2 0#8).toNat else 1

/-- The frame that the opcode table's numbering of bits stands for: the bytes of `w` in order, the
first byte from bits 7..0, and zero bytes after them up to the length the opcode's format requires. -/
def tableFrame (nbits w : Nat) : Frame :=
  let bytes := leBytes ((nbits + 7) / 8) w
  bytes ++ List.replicate (requiredLength bytes - bytes.length) 0x00#8

/-- What the decoder reads from an instruction whose bits are `w`, numbered as the opcode table
numbers them. -/
def decodeTableWord (nbits w : Nat) : Option Instr :=
  match decode (tableFrame nbits w) with
  | .ok i => some i
  | .error _ => none

end Sys2Proof
end

