-- ==== Sys2Proof/Machine/Operands.lean ====
section
/-! DEFINITION. Operand assembly of `PUSH_C1` and the byte form of responses
(spec/30_encoding.md R66, R67). -/

namespace Sys2Proof.Machine

/-- The pushed C1 codeword: symbol `p` is data byte `p` with flag `p` (R66). -/
def symbols (data : List Byte) (flags : List Bool) : List Symbol :=
  List.zipWith Symbol.mk data flags

/-- The four counters in the order passed, corrected, failed, flushed, each little-endian in
`ceil(CW/8)` bytes (R67, R166). -/
def counterBytes (cfg : Config) (c : Counters) : List Byte :=
  leBytes cfg.counterBytes c.passed ++ leBytes cfg.counterBytes c.corrected
    ++ leBytes cfg.counterBytes c.failed ++ leBytes cfg.counterBytes c.flushed

/-- The payload bytes; a count of `2^32` or more has no frame (R67, 93_implementation_defined.md U8). -/
def payloadBytes (cfg : Config) : Payload → Option Frame
  | .none => some []
  | .data s => if s.length < 2 ^ 32 then some (leBytes 4 s.length ++ s) else none
  | .flags s => if s.length < 2 ^ 32 then some (leBytes 4 s.length ++ s.map flagByte) else none
  | .counters c => some (counterBytes cfg c)

/-- The response frame's bytes (R67). -/
def responseBytes (cfg : Config) (r : Response) : Option Frame :=
  (payloadBytes cfg r.payload).map (r.status.code :: ·)

/-- The diagnostic record: the same layout as a `GET_STATS` payload (R67, R167). -/
def diagBytes (cfg : Config) (c : Counters) : Frame := counterBytes cfg c

end Sys2Proof.Machine
end

