-- ==== Sys2Proof/Machine/ReedSolomon.lean ====
section
/-! DEFINITION. The Reed-Solomon erasure-and-error decoder `RSDEC`, step by step
(spec/41_rs_decoder.md R110 to R125).  A codeword is the list of its bytes in position order, a set
of positions the list of its members, each once. -/

namespace Sys2Proof.Machine

/-- The locator `X[i] = alpha^(n-1-i)` (R111). -/
def locator (c : Config) (i : Nat) : Byte := alphaPow c.gfPoly (c.nSym - 1 - i)

/-- `inv(X[i]) = alpha^(-(n-1-i))` (R119, R122). -/
def locatorInv (c : Config) (i : Nat) : Byte :=
  alphaPowInt c.gfPoly (-((c.nSym - 1 - i : Nat) : Int))

/-- Horner's rule over the positions in order: `acc <- acc * z (+) w[i]` (R114). -/
def horner (P : Poly9) (w : List Byte) (z : Byte) : Byte :=
  w.foldl (fun acc x => gfAdd (gfMul P acc z) x) 0#8

/-- Step 2: `S[j]` for `j = 0..r-1` (R114). -/
def syndromes (c : Config) (w : List Byte) : List Byte :=
  (List.range c.nPar).map fun j => horner c.gfPoly w (alphaPow c.gfPoly (c.fcr + j))

/-- Every element is `0x00`. -/
def allZero (l : List Byte) : Bool := l.all (· == 0#8)

/-- Step 4: the erasure locator, the product of `0x01 + X[i] x` over `E` (R116). -/
def erasureLocator (c : Config) (E : List Nat) : List Byte :=
  E.foldl (fun g i => polyMul c.gfPoly g [0x01#8, locator c i]) [0x01#8]

/-- Step 5, the modified syndromes `U[q] = T[e + q]`, `q = 0..M-1`, with `T = S * Gam mod x^r` and
`M = r - e` (R117). -/
def modifiedSyndromes (c : Config) (S gam : List Byte) (e : Nat) : List Byte :=
  (polyMulMod c.gfPoly S gam c.nPar).drop e

/-- The variables of the Berlekamp-Massey iteration; `b` is never `0x00` (R117). -/
structure BmState where
  lam : List Byte
  bp : List Byte
  lc : Nat
  s : Nat
  b : { b : Byte // b ≠ 0#8 }
deriving DecidableEq, Repr

/-- The start of the iteration, `r + 1` coefficients each (R117). -/
def bmInit (r : Nat) : BmState where
  lam := 0x01#8 :: List.replicate r 0#8
  bp := 0x01#8 :: List.replicate r 0#8
  lc := 0
  s := 1
  b := ⟨0x01#8, by decide⟩

/-- The discrepancy `d` of iteration `q` (R117). -/
def bmDiscrepancy (P : Poly9) (U : List Byte) (st : BmState) (q : Nat) : Byte :=
  gfAdd (U.getD q 0#8)
    (gfSum ((List.range st.lc).map fun l =>
      gfMul P (st.lam.getD (l + 1) 0#8) (U.getD (q - (l + 1)) 0#8)))

/-- `Lam[l+s] <- Lam[l+s] (+) coef * Bp[l]` for `l = 0..r-s` (R117). -/
def bmUpdate (P : Poly9) (r : Nat) (st : BmState) (coef : Byte) : List Byte :=
  (List.range (r + 1)).map fun t =>
    if t < st.s then st.lam.getD t 0#8
    else gfAdd (st.lam.getD t 0#8) (gfMul P coef (st.bp.getD (t - st.s) 0#8))

/-- One iteration `q` (R117). -/
def bmStep (P : Poly9) (r : Nat) (U : List Byte) (st : BmState) (q : Nat) : BmState :=
  let d := bmDiscrepancy P U st q
  if h : d = 0#8 then { st with s := st.s + 1 }
  else
    let lam := bmUpdate P r st (gfDiv P d st.b.1 st.b.2)
    if 2 * st.lc ≤ q then
      { lam := lam, bp := st.lam, lc := q + 1 - st.lc, s := 1, b := ⟨d, h⟩ }
    else { st with lam := lam, s := st.s + 1 }

/-- The iteration for `q = 0..M-1` (R117). -/
def berlekampMassey (c : Config) (U : List Byte) : BmState :=
  (List.range U.length).foldl (bmStep c.gfPoly c.nPar U) (bmInit c.nPar)

/-- Steps 5 and 6: the error locator `Lam[0..Lc]`, or `none` (`Failed`) when `2*Lc > M` or the
degree of `Lam` is not `Lc` (R117, R118). -/
def errorLocator (c : Config) (U : List Byte) : Option (List Byte) :=
  let bm := berlekampMassey c U
  if U.length < 2 * bm.lc then none
  else if polyDegree bm.lam ≠ bm.lc then none
  else some (bm.lam.take (bm.lc + 1))

/-- Step 7: the error positions, the non-erased `i` with `Lam(inv(X[i])) = 0x00` (R119). -/
def chien (c : Config) (lam : List Byte) (E : List Nat) : List Nat :=
  (List.range c.nSym).filter fun i =>
    !E.contains i && polyEval c.gfPoly lam (locatorInv c i) == 0#8

/-- Step 10: the error value of position `i`, `none` (`Failed`) when `Psi'(inv(X[i])) = 0x00` (R122). -/
def forney (c : Config) (om dpsi : List Byte) (i : Nat) : Option Byte :=
  let z := locatorInv c i
  let den := polyEval c.gfPoly dpsi z
  if h : den = 0#8 then none
  else
    some (gfMul c.gfPoly (alphaPowInt c.gfPoly (((c.nSym - 1 - i : Nat) : Int) * (1 - (c.fcr : Int))))
      (gfDiv c.gfPoly (polyEval c.gfPoly om z) den h))

/-- Steps 9 and 10: the error values of the given positions, `none` if any is (R121, R122). -/
def errorValues (c : Config) (S lam gam : List Byte) (pos : List Nat) :
    Option (List (Nat × Byte)) :=
  let psi := polyMul c.gfPoly lam gam
  let om := polyMulMod c.gfPoly S psi c.nPar
  let dpsi := polyDeriv psi
  pos.mapM fun i => (forney c om dpsi i).map fun y => (i, y)

/-- Step 11: `c[i] = w[i] (+) Y[i]` where there is an error value, `w[i]` elsewhere (R123). -/
def correct (c : Config) (w : List Byte) (ys : List (Nat × Byte)) : List Byte :=
  (List.range c.nSym).map fun i => gfAdd (w.getD i 0#8) ((ys.lookup i).getD 0#8)

/-- The result of `RSDEC`: an outcome and, unless `Failed`, a codeword (R110). -/
inductive RsResult where
  | passed (w : List Byte)
  | corrected (w : List Byte)
  | failed
deriving DecidableEq, Repr

/-- Steps 4 to 12, for a word that is not clean and has at most `r` erasures (R116 to R124). -/
def rsCorrect (c : Config) (w : List Byte) (E : List Nat) : RsResult :=
  let S := syndromes c w
  let gam := erasureLocator c E
  match errorLocator c (modifiedSyndromes c S gam E.length) with
  | none => .failed
  | some lam =>
    let Q := chien c lam E
    if Q.length + 1 ≠ lam.length then .failed
    else
      match errorValues c S lam gam (E ++ Q) with
      | none => .failed
      | some ys =>
        let cw := correct c w ys
        if allZero (syndromes c cw) then .corrected cw else .failed

/-- `RSDEC(w, E)` (R110): step 1, the erasure count (R113); step 3, the clean short-circuit (R115);
then steps 4 to 12. -/
def rsDecode (c : Config) (w : List Byte) (E : List Nat) : RsResult :=
  if c.nPar < E.length then .failed
  else if E = [] ∧ allZero (syndromes c w) = true then .passed w
  else rsCorrect c w E

end Sys2Proof.Machine
end

