-- ==== Sys2Proof/Machine/Orchestrator.lean ====
section
/-! DEFINITION. The C2 orchestrator: `OUTPUT`, `EMIT` and the commands `PUSH_C1`, `RESET_STATS`,
`GET_STATS`, `REPORT_STATUS` (spec/43_orchestrator.md). -/

namespace Sys2Proof.Machine

/-- What one C2 codeword adds to the block's output: its outcome, `n` bytes and `n` flags (R163). -/
structure Emission where
  outcome : CodewordOutcome
  od : List Byte
  oe : List Bool
deriving DecidableEq, Repr

/-- The bytes of an assembled codeword (R145). -/
def tapBytes (tap : List Symbol) : List Byte := tap.map Symbol.d

/-- The erasure set of an assembled codeword, in position order (R145). -/
def tapErasures (tap : List Symbol) : List Nat :=
  (List.range tap.length).filter fun i => (tap.getD i Symbol.vacant).f

/-- Row `Failed` of `OUTPUT` (R163). -/
def failedBytes (cfg : Config) (w : List Byte) : List Byte :=
  match cfg.failPolicy with
  | .passThrough => w
  | .zeroFill => w.map fun _ => 0#8

/-- Row `Flushed` of `OUTPUT`: `0x00` at a missing position or under `ZeroFill` (R163). -/
def flushedBytes (cfg : Config) (w : List Byte) (miss : List Nat) : List Byte :=
  (List.range w.length).map fun i =>
    if miss.contains i || cfg.failPolicy == .zeroFill then 0#8 else w.getD i 0#8

/-- The classification of one codeword and its row of `OUTPUT` (R162, R163, R186): `Flushed`
without a decode when a position is missing, else the outcome of `RSDEC`. -/
def emission (cfg : Config) (tap : List Symbol) (miss : List Nat) : Emission :=
  let w := tapBytes tap
  if miss ≠ [] then ⟨.flushed, flushedBytes cfg w miss, w.map fun _ => true⟩
  else
    match rsDecode cfg w (tapErasures tap) with
    | .passed c => ⟨.passed, c, w.map fun _ => false⟩
    | .corrected c => ⟨.corrected, c, w.map fun _ => false⟩
    | .failed => ⟨.failed, failedBytes cfg w, w.map fun _ => true⟩

/-- `EMIT(tap, Miss)`: append the bytes and flags, count the outcome (R162). -/
def State.emit (tap : List Symbol) (miss : List Nat) (s : State) : State :=
  let e := emission s.cfg tap miss
  (s.enqueue e.od e.oe).count e.outcome

/-- `PUSH_C1` (R161): ERR_LENGTH (R204), ERR_STATE, ERR_FULL, else emit when primed, then shift. -/
def execPushC1 (data : List Byte) (flags : List Bool) (s : State) :
    Host.Outcome State Fault Refusal :=
  if (Instr.pushC1 data flags).wellSized s.cfg.nSym = false then raise .errLength s
  else if s.phase = .flushed then raise .errState s
  else if s.primed && !s.room s.cfg.nSym then raise .errFull s
  else
    let sym := symbols data flags
    respond .none ((if s.primed then s.emit (s.tap sym) [] else s).shift sym)

/-- `RESET_STATS`: the four counters to zero, nothing else (R165). -/
def execResetStats (s : State) : Host.Outcome State Fault Refusal :=
  respond .none s.clearCounters

/-- `GET_STATS`: a snapshot read of the four counters (R166). -/
def execGetStats (s : State) : Host.Outcome State Fault Refusal :=
  respond (.counters s.cnt) s

/-- `REPORT_STATUS`: one record of the four counters to the diagnostic channel (R167). -/
def execReportStatus (s : State) : Host.Outcome State Fault Refusal :=
  respond .none s.logDiag

end Sys2Proof.Machine
end

