-- ==== Sys2Proof/Machine/FifoFlush.lean ====
section
/-! DEFINITION. The commands `PULL_DATA`, `PULL_ERR`, `FLUSH` and `RESET`
(spec/44_fifo_flush.md). -/

namespace Sys2Proof.Machine

/-- `PULL_DATA`: the whole content of `QD`, oldest first; `QD` becomes empty (R182). -/
def execPullData (s : State) : Host.Outcome State Fault Refusal :=
  respond (.data s.qd) s.emptyQd

/-- `PULL_ERR`: the whole content of `QE`, oldest first; `QE` becomes empty (R183). -/
def execPullErr (s : State) : Host.Outcome State Fault Refusal :=
  respond (.flags s.qe) s.emptyQe

/-- The emission of flush codeword `u` of `F` (R185). -/
def State.flushOne (F : Nat) (s : State) (u : Nat) : State :=
  s.emit (s.ftap F u) (ftapMiss s.cfg F u)

/-- The loop of `FLUSH` over `u = 0..F-1` (R185). -/
def State.flushAll (F : Nat) (s : State) : State :=
  (List.range F).foldl (State.flushOne F) s

/-- `FLUSH` (R185): ERR_FULL unless there is room for `fill * n` elements; then emit the `fill`
codewords left in the bank, clear it and enter `FLUSHED`. -/
def execFlush (s : State) : Host.Outcome State Fault Refusal :=
  if s.room (s.fill * s.cfg.nSym) = false then raise .errFull s
  else respond .none (((s.flushAll s.fill).clearBank).setPhase .flushed)

/-- `RESET`: bank, phase, counters and both FIFOs to the reset state (R188, R230 b). -/
def execReset (s : State) : Host.Outcome State Fault Refusal :=
  respond .none (((s.clearBank.setPhase .run).clearCounters).emptyQd.emptyQe)

end Sys2Proof.Machine
end

