-- ==== Sys2Proof/Machine/Dispatch.lean ====
section
/-! DEFINITION. One arm per command (spec/30_encoding.md R61). -/

namespace Sys2Proof.Machine

def exec (i : Instr) (s : State) : Host.Outcome State Fault Refusal :=
  match i with
  | .pushC1 data flags => Sys2Proof.Machine.execPushC1 data flags s
  | .pullData => Sys2Proof.Machine.execPullData s
  | .pullErr => Sys2Proof.Machine.execPullErr s
  | .flush => Sys2Proof.Machine.execFlush s
  | .resetStats => Sys2Proof.Machine.execResetStats s
  | .getStats => Sys2Proof.Machine.execGetStats s
  | .reportStatus => Sys2Proof.Machine.execReportStatus s
  | .reset => Sys2Proof.Machine.execReset s

end Sys2Proof.Machine
end

