-- ==== Sys2Proof/Machine/Command.lean ====
section
/-! DEFINITION. One command frame performed, a run of frames, and several blocks side by side
(spec/30_encoding.md R60, spec/60_exceptions.md R207, spec/70_reset_and_hazards.md R242,
spec/10_state.md R33). -/

namespace Sys2Proof.Machine

/-- Decode one frame and perform the command, or refuse the frame with the decoder's status (R60,
R69, R201). -/
def command (F : Frame) (s : State) : Host.Outcome State Fault Refusal :=
  match decode F with
  | .error st => raise st s
  | .ok i => exec i s

/-- A run: command frames performed one after another in order (R50, R242). -/
def runFrames : List Frame → State → Host.Outcome State Fault Refusal
  | [], s => .next s
  | F :: rest, s =>
    match command F s with
    | .next t => runFrames rest t
    | .fault r => .fault r
    | .refused r => .refused r

/-- The next frame of the command stream performed; with no frame waiting the block is idle and
nothing changes (R5, R214). -/
def serveFrame (s : State) : Host.Outcome State Fault Refusal :=
  match s.takeFrame with
  | none => .next s
  | some (F, t) => command F t

end Sys2Proof.Machine
end

