-- ==== Sys2Proof/Machine/Step.lean ====
section
/-! DEFINITION. One step of the block: one command frame, performed atomically
(spec/20_memory.md R48, R50). -/

namespace Sys2Proof.Machine

def step (s : State) : Host.Outcome State Fault Refusal := serveFrame s

/-- `s` with the frame of the table's word `w` next in the command stream. -/
def State.withFetchWord (s : State) (nbits w : Nat) : State := s.giveFrame (tableFrame nbits w)

end Sys2Proof.Machine
end

