-- ==== Sys2Proof/Machine/Assembler.lean ====
section
/-! DEFINITION. The textual form of command frames and the pseudo-instructions
(spec/30_encoding.md R70, R71). -/

namespace Sys2Proof.Machine

/-- One line of a program: a command, raw bytes, or a pseudo-instruction (R70, R71). -/
inductive AsmLine where
  | command (i : Instr)
  | raw (bytes : List Byte)
  | pushClean (data : List Byte)
  | pushErased (data : List Byte)
  | poll
  | drain
deriving DecidableEq, Repr

/-- The command a pseudo-instruction `PUSH_CLEAN` or `PUSH_ERASED` abbreviates: all flags equal (R71). -/
def pushAll (flag : Bool) (data : List Byte) : Instr := .pushC1 data (data.map fun _ => flag)

/-- The frames of a line, in the order they are issued (R70, R71). -/
def AsmLine.frames : AsmLine → List Frame
  | .command i => [encode i]
  | .raw bytes => [bytes]
  | .pushClean data => [encode (pushAll false data)]
  | .pushErased data => [encode (pushAll true data)]
  | .poll => [encode .pullData, encode .pullErr]
  | .drain => [encode .flush, encode .pullData, encode .pullErr]

/-- The frames of a program. -/
def assemble (lines : List AsmLine) : List Frame := lines.flatMap AsmLine.frames

/-- The mnemonic of a command (R61). -/
def mnemonic : Instr → String
  | .pushC1 _ _ => "PUSH_C1"
  | .pullData => "PULL_DATA"
  | .pullErr => "PULL_ERR"
  | .flush => "FLUSH"
  | .resetStats => "RESET_STATS"
  | .getStats => "GET_STATS"
  | .reportStatus => "REPORT_STATUS"
  | .reset => "RESET"

/-- A byte as two hexadecimal digits (R70). -/
def hexByte (b : Byte) : String :=
  let digits := "0123456789ABCDEF".toList
  String.ofList [digits.getD (b.toNat / 16) '0', digits.getD (b.toNat % 16) '0']

/-- A list in square brackets, elements separated by spaces (R70). -/
def bracketed (elements : List String) : String :=
  "[" ++ String.intercalate " " elements ++ "]"

/-- The text of a command (R70). -/
def commandText (i : Instr) : String :=
  match i with
  | .pushC1 data flags =>
    mnemonic i ++ " " ++ bracketed (data.map hexByte) ++ " "
      ++ bracketed (flags.map fun f => if f then "1" else "0")
  | .pullData => mnemonic i
  | .pullErr => mnemonic i
  | .flush => mnemonic i
  | .resetStats => mnemonic i
  | .getStats => mnemonic i
  | .reportStatus => mnemonic i
  | .reset => mnemonic i

/-- The text of a line (R70, R71). -/
def AsmLine.text : AsmLine → String
  | .command i => commandText i
  | .raw bytes => "RAW " ++ bracketed (bytes.map hexByte)
  | .pushClean data => "PUSH_CLEAN " ++ bracketed (data.map hexByte)
  | .pushErased data => "PUSH_ERASED " ++ bracketed (data.map hexByte)
  | .poll => "POLL"
  | .drain => "DRAIN"

end Sys2Proof.Machine
end

