-- ==== Sys2Proof/Machine/Blocks.lean ====
section
/-! DEFINITION. Several blocks side by side: a product of independent copies, each with its own
configuration and command stream (spec/10_state.md R33, spec/60_exceptions.md R215). -/

namespace Sys2Proof.Machine

/-- One step of block `k`; a block that is not there does nothing (R33). -/
def stepBlock (k : Nat) (blocks : List State) : Host.Outcome (List State) Fault Refusal :=
  match blocks[k]? with
  | none => .next blocks
  | some s =>
    match step s with
    | .next t => .next (blocks.set k t)
    | .fault r => .fault r
    | .refused r => .refused r

end Sys2Proof.Machine
end

