-- ==== Sys2Proof/Safety.lean ====
section
/-! DEFINITION. The terms in which claims about C2DEC are stated: the invariant of its states, what
a command accepts and emits, and the stream seen from outside (spec/10_state.md R32,
spec/42_deinterleaver.md R140 to R150, spec/43_orchestrator.md R168, R169). -/

namespace Sys2Proof.Machine

/-! ### The invariant -/

/-- The delay bank has `n` lines and line `i` has `L[i]` cells (R21). -/
abbrev State.BankShape (s : State) : Prop :=
  s.cells.length = s.cfg.nSym ∧ ∀ i < s.cfg.nSym, (s.line i).length = s.cfg.lineLen i

/-- Every counter is at most `CMAX` (R32). -/
abbrev State.CountersFit (s : State) : Prop :=
  s.cnt.passed ≤ s.cfg.cmax ∧ s.cnt.corrected ≤ s.cfg.cmax ∧
    s.cnt.failed ≤ s.cfg.cmax ∧ s.cnt.flushed ≤ s.cfg.cmax

/-- What holds in every reachable state (R32): the bank has its shape, `fill ≤ Dmax`, `FLUSHED`
implies an empty bank, both FIFOs hold whole codewords within `QCAP` (`room(0)`), and the counters
fit their width. -/
abbrev State.Inv (s : State) : Prop :=
  s.BankShape ∧ s.fill ≤ s.cfg.dmax ∧ (s.phase = .flushed → s.fill = 0) ∧
    s.cfg.nSym ∣ s.qd.length ∧ s.cfg.nSym ∣ s.qe.length ∧ s.room 0 = true ∧ s.CountersFit

/-- A safe outcome: a next state that meets the invariant. -/
def SafeOutcome (o : Host.Outcome State Fault Refusal) : Prop :=
  match o with
  | .next t => t.Inv
  | .fault _ => False
  | .refused _ => False

/-! ### What a command accepts and emits -/

/-- The command is performed rather than refused, once its frame has been decoded (R161, R185). -/
def accepts (i : Instr) (s : State) : Bool :=
  match i with
  | .pushC1 _ _ =>
    i.wellSized s.cfg.nSym && s.phase == .run && (!s.primed || s.room s.cfg.nSym)
  | .flush => s.room (s.fill * s.cfg.nSym)
  | .pullData => true
  | .pullErr => true
  | .resetStats => true
  | .getStats => true
  | .reportStatus => true
  | .reset => true

/-- The codewords, with their missing positions, that an accepted command emits, in order: one for
a push on a primed bank, `fill` for a flush (R144, R185). -/
def emittedCodewords (i : Instr) (s : State) : List (List Symbol × List Nat) :=
  match i with
  | .pushC1 data flags => if s.primed then [(s.tap (symbols data flags), [])] else []
  | .flush => (List.range s.fill).map fun u => (s.ftap s.fill u, ftapMiss s.cfg s.fill u)
  | .pullData => []
  | .pullErr => []
  | .resetStats => []
  | .getStats => []
  | .reportStatus => []
  | .reset => []

/-- What a command adds to the output, codeword by codeword; nothing when it is refused. -/
def emissions (i : Instr) (s : State) : List Emission :=
  if accepts i s then (emittedCodewords i s).map fun x => emission s.cfg x.1 x.2 else []

/-- All data bytes handed out in a response stream, in order (R54). -/
def pulledData (out : List Response) : List Byte :=
  out.flatMap fun r => match r.payload with
    | .data s => s
    | _ => []

/-- All flags handed out in a response stream, in order (R54). -/
def pulledFlags (out : List Response) : List Bool :=
  out.flatMap fun r => match r.payload with
    | .flags s => s
    | _ => []

/-- The sum of the four counters (R169). -/
def Counters.total (c : Counters) : Nat := c.passed + c.corrected + c.failed + c.flushed

/-- No counter has reached `CMAX` (R169). -/
def State.unsaturated (s : State) : Bool :=
  s.cnt.passed < s.cfg.cmax && s.cnt.corrected < s.cfg.cmax &&
    s.cnt.failed < s.cfg.cmax && s.cnt.flushed < s.cfg.cmax

/-! ### The stream seen from outside -/

/-- `in[t][i]`: position `i` of accepted push number `t` (R140). -/
def pushedSymbol (hist : List (List Symbol)) (t i : Nat) : Symbol :=
  (hist.getD t []).getD i Symbol.vacant

/-- The bank holds the stream `hist` of codewords accepted since the last reset (oldest first):
`fill = min(N, Dmax)` and `cell[i][j] = in[N-1-j][i]` for `j < min(N, L[i])` (R23, R146). -/
abbrev State.BankHolds (s : State) (hist : List (List Symbol)) : Prop :=
  s.fill = min hist.length s.cfg.dmax ∧
    ∀ i < s.cfg.nSym, ∀ j < min hist.length (s.cfg.lineLen i),
      s.cell i j = pushedSymbol hist (hist.length - 1 - j) i

/-- Codeword `m` of the de-interleaved stream: `out[m][i] = in[m + D[i]][i]` (R140). -/
def alignedCodeword (cfg : Config) (hist : List (List Symbol)) (m : Nat) : List Symbol :=
  (List.range cfg.nSym).map fun i => pushedSymbol hist (m + cfg.d i) i

/-- Codeword `m` where the stream may already have ended: a symbol never pushed is missing (R150). -/
def truncatedCodeword (cfg : Config) (hist : List (List Symbol)) (m : Nat) : List Symbol :=
  (List.range cfg.nSym).map fun i =>
    if m + cfg.d i < hist.length then pushedSymbol hist (m + cfg.d i) i else Symbol.missing

/-- The stream held by the bank after a command: an accepted push adds its codeword, a flush and a
reset leave an empty bank (R143, R151). -/
def streamAfter (i : Instr) (s : State) (hist : List (List Symbol)) : List (List Symbol) :=
  match i with
  | .pushC1 data flags => if accepts i s then hist ++ [symbols data flags] else hist
  | .flush => if accepts i s then [] else hist
  | .reset => []
  | .pullData => hist
  | .pullErr => hist
  | .resetStats => hist
  | .getStats => hist
  | .reportStatus => hist

/-- The counters account for `N` accepted pushes since the last reset: `max(N - Dmax, 0)` codewords
before a flush, `N` after one (R169). -/
abbrev State.Accounts (s : State) (N : Nat) : Prop :=
  (s.phase = .run → s.fill = min N s.cfg.dmax ∧ s.cnt.total = N - s.cfg.dmax) ∧
    (s.phase = .flushed → s.fill = 0 ∧ s.cnt.total = N)

/-- The number of accepted pushes after a command (R169). -/
def pushesAfter (i : Instr) (s : State) (N : Nat) : Nat :=
  match i with
  | .pushC1 _ _ => if accepts i s then N + 1 else N
  | .pullData => N
  | .pullErr => N
  | .flush => N
  | .resetStats => N
  | .getStats => N
  | .reportStatus => N
  | .reset => 0

/-- Two states that differ at most in vacant cells (R22). -/
abbrev AgreeOnValid (s t : State) : Prop :=
  t = { s with cells := t.cells } ∧ s.BankShape ∧ t.BankShape ∧
    ∀ i < s.cfg.nSym, ∀ j < s.cfg.lineLen i, s.valid i j = true → s.cell i j = t.cell i j

/-! ### The code -/

/-- `w` is a codeword: all `r` parity checks hold (R111). -/
abbrev IsCodeword (c : Config) (w : List Byte) : Prop :=
  w.length = c.nSym ∧ ∀ j < c.nPar,
    gfSum ((List.range c.nSym).map fun i =>
      gfMul c.gfPoly (w.getD i 0#8) (alphaPow c.gfPoly ((c.fcr + j) * (c.nSym - 1 - i)))) = 0#8

/-- The number of positions outside `E` where two words differ: the `t` of R112. -/
def errorCount (c : Config) (E : List Nat) (w v : List Byte) : Nat :=
  ((List.range c.nSym).filter fun i =>
    !E.contains i && w.getD i 0#8 != v.getD i 0#8).length

/-- `w` with erasures `E` is within capacity of `v`: `2*t + e ≤ r` (R112). -/
abbrev WithinCapacity (c : Config) (w : List Byte) (E : List Nat) (v : List Byte) : Prop :=
  2 * errorCount c E w v + E.length ≤ c.nPar

/-- `E` is a set of positions of a codeword, each listed once (R10, R110). -/
abbrev ErasureSet (c : Config) (E : List Nat) : Prop :=
  E.Nodup ∧ ∀ i ∈ E, i < c.nSym

end Sys2Proof.Machine
end

