-- ==== Sys2Proof/Certificates/Slice0/Obligations.lean ====
section
/-! DEFINITION. The statements for the provers.  Each is about every well-formed configuration and
every state, reachable or not, unless it names a hypothesis.  A next state is written as the state
before it with the fields that change; all other fields are unchanged. -/

open Sys2Proof Sys2Proof.Machine

/-! ### Encoding -/

/-- Every well-formed command is what its frame decodes to (R62, R63, R69). -/
def Obligations.DecodeOfEncodedCommand : Prop :=
  ∀ i : Instr, i.wf = true → decode (encode i) = .ok i

/-- Every frame that decodes is the frame of a well-formed command, namely the one it decodes to:
no frame has two readings and no bit of a frame is ignored (R65, R68). -/
def Obligations.EncodeOfDecodedFrame : Prop :=
  ∀ (F : Frame) (i : Instr), decode F = .ok i → i.wf = true ∧ encode i = F

/-- Frames written out from the layouts of R61 to R64, one for each opcode. -/
def Obligations.SampleFramesDecode : Prop :=
  decode [0x01#8, 0x04#8, 0x04#8, 0xA0#8, 0xA1#8, 0xA2#8, 0xA3#8, 0x00#8, 0x00#8, 0x01#8, 0x00#8]
      = .ok (.pushC1 [0xA0#8, 0xA1#8, 0xA2#8, 0xA3#8] [false, false, true, false]) ∧
    decode [0x02#8] = .ok .pullData ∧ decode [0x03#8] = .ok .pullErr ∧
    decode [0x04#8] = .ok .flush ∧ decode [0x05#8] = .ok .resetStats ∧
    decode [0x06#8] = .ok .getStats ∧ decode [0x07#8] = .ok .reportStatus ∧
    decode [0x08#8] = .ok .reset

/-- R69, branch by branch in the order of its pseudocode, on the bytes of the frame. -/
def Obligations.DecodeFunctionInOrder : Prop :=
  ∀ (n : Nat) (F : Frame),
    decodeFor n F =
      if F.length = 0 then .error .errFormat
      else if (F.getD 0 0#8).toNat < 0x01 ∨ 0x08 < (F.getD 0 0#8).toNat then .error .errOpcode
      else if F.getD 0 0#8 ≠ 0x01#8 then
        if F.length ≠ 1 then .error .errFormat
        else if F.getD 0 0#8 = 0x02#8 then .ok .pullData
        else if F.getD 0 0#8 = 0x03#8 then .ok .pullErr
        else if F.getD 0 0#8 = 0x04#8 then .ok .flush
        else if F.getD 0 0#8 = 0x05#8 then .ok .resetStats
        else if F.getD 0 0#8 = 0x06#8 then .ok .getStats
        else if F.getD 0 0#8 = 0x07#8 then .ok .reportStatus
        else .ok .reset
      else if F.length < 3 then .error .errFormat
      else if F.length ≠ 3 + (F.getD 1 0#8).toNat + (F.getD 2 0#8).toNat then .error .errFormat
      else if ∃ q < (F.getD 2 0#8).toNat,
          0x01 < (F.getD (3 + (F.getD 1 0#8).toNat + q) 0#8).toNat then .error .errFormat
      else if (F.getD 1 0#8).toNat ≠ n ∨ (F.getD 2 0#8).toNat ≠ n then .error .errLength
      else
        .ok (.pushC1 ((List.range n).map fun p => F.getD (3 + p) 0#8)
          ((List.range n).map fun p => (F.getD (3 + n + p) 0#8).getLsbD 0))

/-- The commands performed are those of R69's decode function for the block's own `n`. -/
def Obligations.CommandFollowsDecodeFunction : Prop :=
  ∀ (F : Frame) (s : State),
    (∀ i, decodeFor s.cfg.nSym F = .ok i → command F s = exec i s) ∧
      (∀ st, decodeFor s.cfg.nSym F = .error st →
        command F s = .next { s with outbox := s.outbox ++ [⟨st, .none⟩] })

/-! ### One step -/

/-- A step takes the next frame of the command stream: a frame that decodes runs as its command, a
frame that does not is answered with the decoder's status (R50, R60). -/
def Obligations.StepRunsDecodedCommand : Prop :=
  ∀ (s : State) (F : Frame) (rest : List Frame), s.inbox = F :: rest →
    (∀ i, decode F = .ok i → step s = exec i { s with inbox := rest }) ∧
      (∀ st, decode F = .error st →
        step s = .next { s with inbox := rest, outbox := s.outbox ++ [⟨st, .none⟩] })

/-- With no frame waiting nothing happens: the block never acts on its own (R5, R214).  That a step
exists at all then is the model's choice (log entry 4). -/
def Obligations.IdleBlockDoesNothing : Prop :=
  ∀ s : State, s.inbox = [] → step s = .next s

/-- Every frame is performed to the end and answered with exactly one response (R60, R241). -/
def Obligations.EachFrameAnsweredOnce : Prop :=
  ∀ (s : State) (F : Frame) (rest : List Frame), s.inbox = F :: rest →
    ∃ t r, step s = .next t ∧ t.inbox = rest ∧ t.outbox = s.outbox ++ [r]

/-- A run is its frames performed one step each (R242). -/
def Obligations.RunIsOneStepPerFrame : Prop :=
  ∀ (Fs : List Frame) (s : State), s.inbox = [] →
    Sys2Proof.core.run Fs.length { s with inbox := Fs } = runFrames Fs s

/-! ### Refusals -/

/-- R202: an illegal first byte gives ERR_OPCODE whatever follows it, and changes no state. -/
def Obligations.IllegalOpcodeRefused : Prop :=
  ∀ (op : Byte) (rest : Frame) (s : State), op = 0x00#8 ∨ 0x09 ≤ op.toNat →
    command (op :: rest) s = .next { s with outbox := s.outbox ++ [⟨.errOpcode, .none⟩] }

/-- R203, its five causes (a) to (e). -/
def Obligations.MalformedFrameRefused : Prop :=
  ∀ s : State,
    let refused : Host.Outcome State Fault Refusal :=
      .next { s with outbox := s.outbox ++ [⟨.errFormat, .none⟩] }
    command [] s = refused ∧
      (∀ (op : Byte) (rest : Frame), 0x02 ≤ op.toNat → op.toNat ≤ 0x08 → rest ≠ [] →
        command (op :: rest) s = refused) ∧
      (∀ rest : Frame, rest.length < 2 → command (0x01#8 :: rest) s = refused) ∧
      (∀ (dlen flen : Byte) (body : Frame), body.length ≠ dlen.toNat + flen.toNat →
        command (0x01#8 :: dlen :: flen :: body) s = refused) ∧
      (∀ (dlen flen : Byte) (body : Frame), body.length = dlen.toNat + flen.toNat →
        (∃ b ∈ body.drop dlen.toNat, 0x01 < b.toNat) →
        command (0x01#8 :: dlen :: flen :: body) s = refused)

/-- R204: a well-formed push frame whose data or flag length is not `n` gives ERR_LENGTH; no symbol
of it reaches the bank and `fill` does not advance. -/
def Obligations.WrongLengthRefused : Prop :=
  ∀ (s : State) (dlen flen : Byte) (body : Frame), body.length = dlen.toNat + flen.toNat →
    (∀ b ∈ body.drop dlen.toNat, b.toNat ≤ 0x01) →
    (dlen.toNat ≠ s.cfg.nSym ∨ flen.toNat ≠ s.cfg.nSym) →
    command (0x01#8 :: dlen :: flen :: body) s
      = .next { s with outbox := s.outbox ++ [⟨.errLength, .none⟩] }

/-- R205: a well-sized push while `phase = FLUSHED` gives ERR_STATE. -/
def Obligations.PushAfterFlushRefused : Prop :=
  ∀ (s : State) (data : List Byte) (flags : List Bool), data.length = s.cfg.nSym →
    flags.length = s.cfg.nSym → s.phase = .flushed →
    exec (.pushC1 data flags) s = .next { s with outbox := s.outbox ++ [⟨.errState, .none⟩] }

/-- R206 (a) and (b): with a finite `QCAP`, a push on a primed bank and a flush that lack room give
ERR_FULL and change nothing. -/
def Obligations.LackOfRoomRefused : Prop :=
  ∀ (s : State) (q : Nat), s.cfg.qcap = some q →
    (∀ (data : List Byte) (flags : List Bool), data.length = s.cfg.nSym →
      flags.length = s.cfg.nSym → s.phase = .run → s.fill = s.cfg.dmax →
      (q < s.qd.length + s.cfg.nSym ∨ q < s.qe.length + s.cfg.nSym) →
      exec (.pushC1 data flags) s = .next { s with outbox := s.outbox ++ [⟨.errFull, .none⟩] }) ∧
    ((q < s.qd.length + s.fill * s.cfg.nSym ∨ q < s.qe.length + s.fill * s.cfg.nSym) →
      exec .flush s = .next { s with outbox := s.outbox ++ [⟨.errFull, .none⟩] })

/-- R206: because `QCAP ≥ n`, a well-sized push in `RUN` succeeds once both FIFOs are empty. -/
def Obligations.PushSucceedsOnceDrained : Prop :=
  ∀ (s : State) (data : List Byte) (flags : List Bool), data.length = s.cfg.nSym →
    flags.length = s.cfg.nSym → s.phase = .run → s.qd = [] → s.qe = [] →
    ∃ t, exec (.pushC1 data flags) s = .next t ∧ t.outbox = s.outbox ++ [⟨.ok, .none⟩]

/-- R207: the one status a frame is answered with, on the bytes of the frame and the state alone. -/
def Obligations.StatusByPriority : Prop :=
  ∀ (F : Frame) (s : State),
    let op := F.getD 0 0#8
    let dlen := (F.getD 1 0#8).toNat
    let flen := (F.getD 2 0#8).toNat
    ∃ t r, command F s = .next t ∧ t.outbox = s.outbox ++ [r] ∧
      r.status =
        if F = [] then .errFormat
        else if op = 0x00#8 ∨ 0x09 ≤ op.toNat then .errOpcode
        else if (op ≠ 0x01#8 ∧ F.length ≠ 1) ∨
            (op = 0x01#8 ∧ (F.length < 3 ∨ F.length ≠ 3 + dlen + flen ∨
              ∃ b ∈ F.drop (3 + dlen), 0x01 < b.toNat)) then .errFormat
        else if op = 0x01#8 ∧ (dlen ≠ s.cfg.nSym ∨ flen ≠ s.cfg.nSym) then .errLength
        else if op = 0x01#8 ∧ s.phase = .flushed then .errState
        else if (op = 0x01#8 ∧ s.fill = s.cfg.dmax ∧ s.room s.cfg.nSym = false) ∨
            (op = 0x04#8 ∧ s.room (s.fill * s.cfg.nSym) = false) then .errFull
        else .ok

/-- R201: a command answered with a non-zero status changes nothing but the response stream, its
response is the status alone, and the next command is performed as if it had not been sent. -/
def Obligations.RefusedCommandChangesNothing : Prop :=
  ∀ (F : Frame) (s t : State) (r : Response), command F s = .next t →
    t.outbox = s.outbox ++ [r] → r.status ≠ .ok →
    r.payload = .none ∧ t = { s with outbox := s.outbox ++ [r] } ∧
      ∀ (G : Frame) (u : State), command G s = .next u →
        ∃ r', u.outbox = s.outbox ++ [r'] ∧
          command G t = .next { u with outbox := t.outbox ++ [r'] }

/-! ### Responses -/

/-- R43: `leBytes k v` has the less significant byte at the lower offset and loses nothing of a
value that fits. -/
def Obligations.FieldsAreLittleEndian : Prop :=
  ∀ k v : Nat, v < 256 ^ k →
    (leBytes k v).length = k ∧
      (leBytes k v).foldr (fun b acc => b.toNat + 256 * acc) 0 = v

/-- R67, R200: the bytes of every response a command gives, the six status bytes written out, and none for a pull whose count has no 32-bit
form (93_implementation_defined.md U8). -/
def Obligations.ResponseFrameLayout : Prop :=
  ∀ cfg : Config,
    (responseBytes cfg ⟨.ok, .none⟩ = some [0x00#8] ∧
      responseBytes cfg ⟨.errOpcode, .none⟩ = some [0x01#8] ∧
      responseBytes cfg ⟨.errFormat, .none⟩ = some [0x02#8] ∧
      responseBytes cfg ⟨.errLength, .none⟩ = some [0x03#8] ∧
      responseBytes cfg ⟨.errState, .none⟩ = some [0x04#8] ∧
      responseBytes cfg ⟨.errFull, .none⟩ = some [0x05#8]) ∧
      (∀ d : List Byte, d.length < 2 ^ 32 →
        responseBytes cfg ⟨.ok, .data d⟩ = some (0x00#8 :: (leBytes 4 d.length ++ d))) ∧
      (∀ f : List Bool, f.length < 2 ^ 32 →
        responseBytes cfg ⟨.ok, .flags f⟩ =
          some (0x00#8 :: (leBytes 4 f.length ++ f.map fun b => if b then 0x01#8 else 0x00#8))) ∧
      (∀ c : Counters, responseBytes cfg ⟨.ok, .counters c⟩ =
        some (0x00#8 :: (leBytes ((cfg.cw + 7) / 8) c.passed ++ leBytes ((cfg.cw + 7) / 8) c.corrected
          ++ leBytes ((cfg.cw + 7) / 8) c.failed ++ leBytes ((cfg.cw + 7) / 8) c.flushed))) ∧
      (∀ (d : List Byte) (f : List Bool), 2 ^ 32 ≤ d.length → 2 ^ 32 ≤ f.length →
        responseBytes cfg ⟨.ok, .data d⟩ = none ∧ responseBytes cfg ⟨.ok, .flags f⟩ = none)

/-! ### The commands, each with what it changes and leaves unchanged -/

/-- R182: `PULL_DATA` answers the whole of `QD`, oldest first, and empties it; nothing else changes.
The frame is `02`, and the response has the count in four bytes and then the bytes. -/
def Obligations.PullDataReturnsWholeQueue : Prop :=
  ∀ s : State,
    exec .pullData s = .next { s with qd := [], outbox := s.outbox ++ [⟨.ok, .data s.qd⟩] } ∧
      command [0x02#8] s = exec .pullData s ∧
      (s.qd.length < 2 ^ 32 →
        responseBytes s.cfg ⟨.ok, .data s.qd⟩ = some (0x00#8 :: (leBytes 4 s.qd.length ++ s.qd)))

/-- R183: `PULL_ERR` answers the whole of `QE`, oldest first, and empties it; nothing else changes.
The frame is `03`, and the response has the count in four bytes and then one byte per flag. -/
def Obligations.PullErrReturnsWholeQueue : Prop :=
  ∀ s : State,
    exec .pullErr s = .next { s with qe := [], outbox := s.outbox ++ [⟨.ok, .flags s.qe⟩] } ∧
      command [0x03#8] s = exec .pullErr s ∧
      (s.qe.length < 2 ^ 32 →
        responseBytes s.cfg ⟨.ok, .flags s.qe⟩ =
          some (0x00#8 :: (leBytes 4 s.qe.length ++ s.qe.map fun f => if f then 0x01#8 else 0x00#8)))

/-- R165: `RESET_STATS`, frame `05`, clears the four counters and nothing else, in both phases; a
following `GET_STATS` answers four zeros. -/
def Obligations.ResetStatsClearsCountersOnly : Prop :=
  ∀ s : State,
    exec .resetStats s =
        .next { s with cnt := ⟨0, 0, 0, 0⟩, outbox := s.outbox ++ [⟨.ok, .none⟩] } ∧
      command [0x05#8] s = exec .resetStats s ∧
      ∀ t, exec .resetStats s = .next t →
        exec .getStats t =
          .next { t with outbox := t.outbox ++ [⟨.ok, .counters ⟨0, 0, 0, 0⟩⟩] }

/-- R166: `GET_STATS`, frame `06`, answers the four counters in the fixed order, each little-endian
in `ceil(CW/8)` bytes, and writes no state, in both phases. -/
def Obligations.GetStatsIsASnapshot : Prop :=
  ∀ s : State,
    exec .getStats s = .next { s with outbox := s.outbox ++ [⟨.ok, .counters s.cnt⟩] } ∧
      command [0x06#8] s = exec .getStats s ∧
      responseBytes s.cfg ⟨.ok, .counters s.cnt⟩ =
        some (0x00#8 :: (leBytes ((s.cfg.cw + 7) / 8) s.cnt.passed
          ++ leBytes ((s.cfg.cw + 7) / 8) s.cnt.corrected
          ++ leBytes ((s.cfg.cw + 7) / 8) s.cnt.failed ++ leBytes ((s.cfg.cw + 7) / 8) s.cnt.flushed))

/-- R167: `REPORT_STATUS`, frame `07`, writes one record of the four counters, in the layout of a
`GET_STATS` payload, to the diagnostic channel and writes no state, in both phases.  That the channel
keeps every record, in order, is the model's choice: R167 and U9 leave delivery open (log entry 5,
DESIGN CHOICE). -/
def Obligations.ReportStatusOnlyWritesDiagnostics : Prop :=
  ∀ s : State,
    exec .reportStatus s =
        .next { s with diag := s.diag ++ [s.cnt], outbox := s.outbox ++ [⟨.ok, .none⟩] } ∧
      command [0x07#8] s = exec .reportStatus s ∧
      diagBytes s.cfg s.cnt =
        leBytes ((s.cfg.cw + 7) / 8) s.cnt.passed ++ leBytes ((s.cfg.cw + 7) / 8) s.cnt.corrected
          ++ leBytes ((s.cfg.cw + 7) / 8) s.cnt.failed ++ leBytes ((s.cfg.cw + 7) / 8) s.cnt.flushed

/-- R188, R230: `RESET`, frame `08`, gives the state right after power-on with the same
configuration.  That the command stream, the response stream and the diagnostic record carry on is
the model's choice (log entry 6). -/
def Obligations.ResetCommandEqualsPowerOn : Prop :=
  ∀ s : State,
    exec .reset s =
        .next { State.powerOn s.cfg s.cfgOk with
          inbox := s.inbox, outbox := s.outbox ++ [⟨.ok, .none⟩], diag := s.diag } ∧
      command [0x08#8] s = exec .reset s

/-- R31: right after power-on every cell is `(0x00, 0)`, `fill` is 0, the phase is `RUN`, the
counters are 0 and both FIFOs are empty; the machine's reset state is that of the defaults of R6. -/
def Obligations.PowerOnState : Prop :=
  (∀ (cfg : Config) (h : cfg.wf = true),
    let s := State.powerOn cfg h
    s.cfg = cfg ∧ s.cells.length = cfg.nSym ∧
      (∀ i < cfg.nSym, (s.line i).length = cfg.lineLen i) ∧
      (∀ i < cfg.nSym, ∀ j < cfg.lineLen i, s.cell i j = ⟨0x00#8, false⟩) ∧
      s.fill = 0 ∧ s.phase = .run ∧ s.cnt = ⟨0, 0, 0, 0⟩ ∧ s.qd = [] ∧ s.qe = []) ∧
    State.reset.cfg.nSym = 28 ∧ State.reset.cfg.nPar = 4 ∧ State.reset.cfg.dmax = 108 ∧
    State.reset.cfg.gfPoly = 0x11D#9 ∧ State.reset.cfg.fcr = 0 ∧ State.reset.cfg.cw = 32 ∧
    State.reset.fill = 0 ∧ State.reset.phase = .run

/-- R161, R143: a well-sized push in `RUN` on a bank that is not primed completes: the bank shifts,
`fill` advances, and FIFOs, counters and everything else stay, however full the FIFOs are. -/
def Obligations.PrimingPushOnlyShifts : Prop :=
  ∀ (s : State) (data : List Byte) (flags : List Bool), data.length = s.cfg.nSym →
    flags.length = s.cfg.nSym → s.phase = .run → s.fill < s.cfg.dmax →
    ∃ t, exec (.pushC1 data flags) s = .next t ∧
      t = { s with
        cells := t.cells
        fill := s.fill + 1
        outbox := s.outbox ++ [⟨.ok, .none⟩] } ∧
      (∀ i < s.cfg.nSym, ∀ j < s.cfg.lineLen i,
        t.cell i j =
          if j = 0 then ⟨data.getD i 0#8, flags.getD i false⟩ else s.cell i (j - 1)) ∧
      (s.BankShape → t.BankShape)

/-- R142, R143, R161, R162: a well-sized push in `RUN` on a primed bank with room completes: the
codeword of the oldest stages is emitted (its bytes and flags appended, its outcome counted) and
the bank shifts; everything else stays. -/
def Obligations.PrimedPushEmitsAndShifts : Prop :=
  ∀ (s : State) (data : List Byte) (flags : List Bool), data.length = s.cfg.nSym →
    flags.length = s.cfg.nSym → s.phase = .run → s.fill = s.cfg.dmax →
    s.room s.cfg.nSym = true →
    let tap : List Symbol := (List.range s.cfg.nSym).map fun i =>
      if s.cfg.lineLen i = 0 then ⟨data.getD i 0#8, flags.getD i false⟩
      else s.cell i (s.cfg.lineLen i - 1)
    let e := emission s.cfg tap []
    ∃ t, exec (.pushC1 data flags) s = .next t ∧
      t = { s with
        cells := t.cells
        qd := s.qd ++ e.od
        qe := s.qe ++ e.oe
        cnt := s.cnt.bump s.cfg.cmax e.outcome
        outbox := s.outbox ++ [⟨.ok, .none⟩] } ∧
      (∀ i < s.cfg.nSym, ∀ j < s.cfg.lineLen i,
        t.cell i j =
          if j = 0 then ⟨data.getD i 0#8, flags.getD i false⟩ else s.cell i (j - 1)) ∧
      (s.BankShape → t.BankShape)

/-- R185: a flush with room completes: the `fill` codewords of `FTAP` are emitted in order, every
cell is cleared, `fill` is 0 and the phase `FLUSHED`; everything else stays. -/
def Obligations.FlushEmitsAndClears : Prop :=
  ∀ s : State, s.room (s.fill * s.cfg.nSym) = true →
    let es := (List.range s.fill).map fun u =>
      emission s.cfg (s.ftap s.fill u) (ftapMiss s.cfg s.fill u)
    exec .flush s =
      .next { s with
        cells := (List.range s.cfg.nSym).map fun i =>
          List.replicate (s.cfg.lineLen i) ⟨0x00#8, false⟩
        fill := 0
        phase := .flushed
        qd := s.qd ++ es.flatMap Emission.od
        qe := s.qe ++ es.flatMap Emission.oe
        cnt := es.foldl (fun c e => c.bump s.cfg.cmax e.outcome) s.cnt
        outbox := s.outbox ++ [⟨.ok, .none⟩] }

/-! ### Codewords and outcomes -/

/-- R163, row by row, with R162's rule for which row applies when positions are missing. -/
def Obligations.OutputRowByOutcome : Prop :=
  ∀ (cfg : Config) (tap : List Symbol) (miss : List Nat), tap.length = cfg.nSym →
    let w := tapBytes tap
    let e := emission cfg tap miss
    e.od.length = cfg.nSym ∧ e.oe.length = cfg.nSym ∧
      (e.outcome = .flushed ↔ miss ≠ []) ∧
      (e.outcome = .passed → rsDecode cfg w (tapErasures tap) = .passed w ∧ e.od = w ∧
        ∀ f ∈ e.oe, f = false) ∧
      (e.outcome = .corrected → rsDecode cfg w (tapErasures tap) = .corrected e.od ∧
        ∀ f ∈ e.oe, f = false) ∧
      (e.outcome = .failed → rsDecode cfg w (tapErasures tap) = .failed ∧
        (∀ i < cfg.nSym, e.od.getD i 0#8 =
          if cfg.failPolicy = .passThrough then w.getD i 0#8 else 0x00#8) ∧
        ∀ f ∈ e.oe, f = true) ∧
      (e.outcome = .flushed →
        (∀ i < cfg.nSym, e.od.getD i 0#8 =
          if i ∈ miss ∨ cfg.failPolicy = .zeroFill then 0x00#8 else w.getD i 0#8) ∧
        ∀ f ∈ e.oe, f = true)

/-- The identity property (R128 a): a codeword with no erasure flag is output unchanged, flagged
trusted and counted `Passed`. -/
def Obligations.CleanCodewordPassesUnchanged : Prop :=
  ∀ (cfg : Config) (tap : List Symbol), cfg.wf = true → (∀ x ∈ tap, x.f = false) →
    IsCodeword cfg (tapBytes tap) →
    emission cfg tap [] = ⟨.passed, tapBytes tap, List.replicate cfg.nSym false⟩

/-- R113, R163: more erased positions than parity symbols is `Failed`, whatever the bytes; the
bytes are the received ones or zeros by policy, every flag is set. -/
def Obligations.TooManyErasuresFail : Prop :=
  ∀ (cfg : Config) (tap : List Symbol), tap.length = cfg.nSym →
    cfg.nPar < (tap.filter Symbol.f).length →
    emission cfg tap [] =
      ⟨.failed,
        if cfg.failPolicy = .passThrough then tapBytes tap else List.replicate cfg.nSym 0x00#8,
        List.replicate cfg.nSym true⟩

/-- R186: every codeword a flush emits is `Flushed`: only that counter moves, by `fill`, and every
appended flag is 1. -/
def Obligations.FlushCodewordsAreFlushed : Prop :=
  ∀ s : State, s.Inv → s.room (s.fill * s.cfg.nSym) = true →
    ∃ t, exec .flush s = .next t ∧
      t.cnt = { s.cnt with flushed := min (s.cnt.flushed + s.fill) s.cfg.cmax } ∧
      t.qe = s.qe ++ List.replicate (s.fill * s.cfg.nSym) true ∧
      t.qd.length = s.qd.length + s.fill * s.cfg.nSym

/-- R114: Horner's rule over the positions computes the parity sum `S[j]` of R111. -/
def Obligations.SyndromeIsParitySum : Prop :=
  ∀ (c : Config) (w : List Byte), c.wf = true → w.length = c.nSym →
    (syndromes c w).length = c.nPar ∧
      ∀ j < c.nPar,
        (syndromes c w).getD j 0#8 =
          gfSum ((List.range c.nSym).map fun i =>
            gfMul c.gfPoly (w.getD i 0#8)
              (alphaPow c.gfPoly ((c.fcr + j) * (c.nSym - 1 - i))))

/-- R125: `Passed` exactly when nothing is erased and the word is a codeword, and then unchanged. -/
def Obligations.PassedExactlyWhenClean : Prop :=
  ∀ (c : Config) (w v : List Byte) (E : List Nat), c.wf = true → w.length = c.nSym →
    (rsDecode c w E = .passed v ↔ v = w ∧ E = [] ∧ IsCodeword c w)

/-- R128: whatever `RSDEC` returns as `Corrected` is a codeword, and the received word is within
capacity of it. -/
def Obligations.CorrectedWordIsSound : Prop :=
  ∀ (c : Config) (w v : List Byte) (E : List Nat), c.wf = true → w.length = c.nSym →
    ErasureSet c E → rsDecode c w E = .corrected v →
    IsCodeword c v ∧ WithinCapacity c w E v

/-- R127: two different codewords differ in at least `r + 1` positions. -/
def Obligations.CodewordsFarApart : Prop :=
  ∀ (c : Config) (v w : List Byte), c.wf = true → IsCodeword c v → IsCodeword c w → v ≠ w →
    c.nPar + 1 ≤ errorCount c [] v w

/-- R127: a received word is within capacity of at most one codeword. -/
def Obligations.CodewordWithinCapacityUnique : Prop :=
  ∀ (c : Config) (w v v' : List Byte) (E : List Nat), c.wf = true → w.length = c.nSym →
    ErasureSet c E → IsCodeword c v → IsCodeword c v' → WithinCapacity c w E v →
    WithinCapacity c w E v' → v = v'

/-- R127 for at most one error, R128 (b), R129: a word within capacity of a codeword, with any
erasures and at most one error outside them but not with neither, is corrected to that codeword; and
with exactly `r` erasures every word is corrected, whatever its bytes. -/
def Obligations.ErasuresAndOneErrorAreCorrected : Prop :=
  ∀ (c : Config) (w : List Byte) (E : List Nat), c.wf = true → w.length = c.nSym →
    ErasureSet c E →
    (∀ v, IsCodeword c v → WithinCapacity c w E v → errorCount c E w v ≤ 1 →
      (E ≠ [] ∨ errorCount c E w v = 1) → rsDecode c w E = .corrected v) ∧
    (E.length = c.nPar → ∃ v, rsDecode c w E = .corrected v ∧ IsCodeword c v)

/-! ### The field -/

/-- R94: `inv(a)` is the one byte whose product with `a` is `0x01`; it is `alpha^(255 - log a)` and
`a^254`. -/
def Obligations.InverseIsUnique : Prop :=
  ∀ (P : Poly9) (a : Byte) (h : a ≠ 0#8), primitive P = true →
    gfMul P a (gfInv P a h) = 0x01#8 ∧ (∀ b, gfMul P a b = 0x01#8 → b = gfInv P a h) ∧
      gfInv P a h = gfPow P a 254 ∧
      ∃ e, gfLog P a = some e ∧ gfInv P a h = alphaPow P (255 - e)

/-- R100: the laws of the field for a polynomial under which `alpha` is primitive. -/
def Obligations.FieldLaws : Prop :=
  ∀ P : Poly9, primitive P = true →
    (∀ a b c, gfAdd (gfAdd a b) c = gfAdd a (gfAdd b c)) ∧ (∀ a b, gfAdd a b = gfAdd b a) ∧
      (∀ a, gfAdd a a = 0x00#8) ∧
      (∀ a b c, gfMul P (gfMul P a b) c = gfMul P a (gfMul P b c)) ∧
      (∀ a b, gfMul P a b = gfMul P b a) ∧
      (∀ a b c, gfMul P a (gfAdd b c) = gfAdd (gfMul P a b) (gfMul P a c)) ∧
      (∀ a b, gfMul P a b = 0x00#8 ↔ a = 0x00#8 ∨ b = 0x00#8) ∧
      (∀ a, a ≠ 0x00#8 → ∃! b, gfMul P a b = 0x01#8) ∧
      (∀ a, a ≠ 0x00#8 → gfPow P a 255 = 0x01#8) ∧
      (∀ e g, gfMul P (alphaPow P e) (alphaPow P g) = alphaPow P (e + g)) ∧
      (∀ a b, a ≠ 0x00#8 → b ≠ 0x00#8 → ∃ x y, gfLog P a = some x ∧ gfLog P b = some y ∧
        gfMul P a b = alphaPow P ((x + y) % 255))

/-- R97: Horner's rule computes the sum of `p[l] * x^l`; the empty polynomial gives `0x00`.  The
constant term is written `p[0]`, so that no power with exponent 0 is taken (log entry 16). -/
def Obligations.PolynomialEvaluation : Prop :=
  ∀ (P : Poly9) (p : List Byte) (x : Byte),
    polyEval P p x =
        gfSum ((List.range p.length).map fun l =>
          if l = 0 then p.getD 0 0#8 else gfMul P (p.getD l 0#8) (gfPow P x l)) ∧
      polyEval P [] x = 0x00#8

/-- R98: the product of two polynomials has the product of their values at every point, and
`mod x^m` keeps its coefficients `0..m-1`. -/
def Obligations.ProductOfPolynomials : Prop :=
  ∀ (P : Poly9) (p q : List Byte),
    (∀ x, polyEval P (polyMul P p q) x = gfMul P (polyEval P p x) (polyEval P q x)) ∧
      (polyMul P p q).length = p.length + q.length - 1 ∧
      ∀ m, (polyMulMod P p q m).length = m ∧
        ∀ t < m, (polyMulMod P p q m).getD t 0#8 = (polyMul P p q).getD t 0#8

/-! ### The de-interleaver -/

/-- R146: the bank always holds the stream of codewords accepted since the last reset or flush:
`fill = min(N, Dmax)` and `cell[i][j] = in[N-1-j][i]`; it does so from power-on and every command
keeps it so. -/
def Obligations.BankHoldsTheStream : Prop :=
  (∀ (cfg : Config) (h : cfg.wf = true), (State.powerOn cfg h).BankHolds []) ∧
    ∀ (i : Instr) (s t : State) (hist : List (List Symbol)), s.BankHolds hist →
      exec i s = .next t → t.BankHolds (streamAfter i s hist)

/-- R140, R144, R147: push number `N` (from 0) emits nothing while `N < Dmax`, and otherwise emits
codeword `m = N - Dmax`, whose position `i` is `in[m + D[i]][i]`. -/
def Obligations.PushEmitsAlignedCodeword : Prop :=
  ∀ (s : State) (data : List Byte) (flags : List Bool) (hist : List (List Symbol)),
    s.BankHolds hist → accepts (.pushC1 data flags) s = true →
    let stream := hist ++ [symbols data flags]
    ∃ t, exec (.pushC1 data flags) s = .next t ∧
      (hist.length < s.cfg.dmax → t.qd = s.qd ∧ t.qe = s.qe ∧ t.cnt = s.cnt) ∧
      (s.cfg.dmax ≤ hist.length →
        let e := emission s.cfg (alignedCodeword s.cfg stream (hist.length - s.cfg.dmax)) []
        t.qd = s.qd ++ e.od ∧ t.qe = s.qe ++ e.oe ∧ t.cnt = s.cnt.bump s.cfg.cmax e.outcome)

/-- R150, R185: after `N` accepted pushes a flush emits the codewords `m = max(N - Dmax, 0)..N-1`
in order; position `i` of codeword `m` is `in[m + D[i]][i]` where that push exists and is missing
otherwise. -/
def Obligations.FlushEmitsRemainingCodewords : Prop :=
  ∀ (s : State) (hist : List (List Symbol)), s.BankHolds hist →
    s.room (s.fill * s.cfg.nSym) = true →
    let N := hist.length
    let first := N - s.cfg.dmax
    let es := (List.range (min N s.cfg.dmax)).map fun u =>
      emission s.cfg (truncatedCodeword s.cfg hist (first + u))
        ((List.range s.cfg.nSym).filter fun i => N ≤ first + u + s.cfg.d i)
    ∃ t, exec .flush s = .next t ∧ t.qd = s.qd ++ es.flatMap Emission.od ∧
      t.qe = s.qe ++ es.flatMap Emission.oe ∧
      t.cnt = es.foldl (fun c e => c.bump s.cfg.cmax e.outcome) s.cnt

/-- R22: what vacant cells hold is unobservable: two states that differ only there give the same
responses, the same output and again states that differ only there. -/
def Obligations.VacantCellsUnobservable : Prop :=
  ∀ s t s' t' : State, s.fill ≤ s.cfg.dmax → AgreeOnValid s t → step s = .next s' →
    step t = .next t' → AgreeOnValid s' t'

/-- R32, R149: the buffered symbols never exceed `BANK_SIZE = n*Dmax - sum D`. -/
def Obligations.BufferedSymbolsBounded : Prop :=
  ∀ s : State, s.buffered ≤ s.cfg.bankSize ∧
    s.cfg.bankSize + ((List.range s.cfg.nSym).map s.cfg.d).sum = s.cfg.nSym * s.cfg.dmax

/-! ### Whole-machine rules -/

/-- R32: the invariant of the reachable states holds at power-on. -/
def Obligations.PowerOnMeetsInvariant : Prop :=
  (∀ (cfg : Config) (h : cfg.wf = true), (State.powerOn cfg h).Inv) ∧ State.reset.Inv

/-- R32: every step, whatever the frame, keeps the invariant of the reachable states. -/
def Obligations.StepKeepsInvariant : Prop :=
  ∀ s : State, s.Inv → SafeOutcome (step s)

/-- R53: no step changes the configuration. -/
def Obligations.ConfigurationNeverChanges : Prop :=
  ∀ s t : State, step s = .next t → t.cfg = s.cfg

/-- R24: the phase changes only to `FLUSHED` by a `FLUSH` and only to `RUN` by a `RESET`. -/
def Obligations.OnlyFlushAndResetChangePhase : Prop :=
  ∀ (F : Frame) (s t : State), command F s = .next t → t.phase ≠ s.phase →
    (F = [0x04#8] ∧ t.phase = .flushed) ∨ (F = [0x08#8] ∧ t.phase = .run)

/-- R26: no command but `RESET_STATS` and `RESET` decreases a counter, and none exceeds `CMAX`. -/
def Obligations.CountersNeverDecrease : Prop :=
  ∀ (F : Frame) (s t : State), s.CountersFit → command F s = .next t →
    t.CountersFit ∧
      (F ≠ [0x05#8] → F ≠ [0x08#8] →
        s.cnt.passed ≤ t.cnt.passed ∧ s.cnt.corrected ≤ t.cnt.corrected ∧
          s.cnt.failed ≤ t.cnt.failed ∧ s.cnt.flushed ≤ t.cnt.flushed)

/-- R54, R168: everything pulled followed by what is still queued grows by exactly what the command
emits, in emission order, for each FIFO: nothing is lost, reordered or duplicated. -/
def Obligations.OutputStreamIsConserved : Prop :=
  ∀ (i : Instr) (s t : State), i ≠ .reset → exec i s = .next t →
    pulledData t.outbox ++ t.qd =
        pulledData s.outbox ++ s.qd ++ (emissions i s).flatMap Emission.od ∧
      pulledFlags t.outbox ++ t.qe =
        pulledFlags s.outbox ++ s.qe ++ (emissions i s).flatMap Emission.oe

/-- R180, R237: as long as both FIFOs are pulled together they have equal lengths, so that bytes and
flags pair element by element: every command but a pull keeps them equal, and a pull of both leaves
both empty. -/
def Obligations.FifosStayPaired : Prop :=
  ∀ (i : Instr) (s t : State), i ≠ .pullData → i ≠ .pullErr → s.qd.length = s.qe.length →
    exec i s = .next t →
    t.qd.length = t.qe.length ∧
      ∀ u v, exec .pullData t = .next u → exec .pullErr u = .next v → v.qd = [] ∧ v.qe = []

/-- R169, R187: the counters account for every accepted push since the last reset, `N - Dmax`
codewords before a flush and all `N` after one, as long as none has saturated and `RESET_STATS` is
not issued. -/
def Obligations.CountersAccountForPushes : Prop :=
  (∀ (cfg : Config) (h : cfg.wf = true), (State.powerOn cfg h).Accounts 0) ∧
    ∀ (i : Instr) (s t : State) (N : Nat), s.Accounts N → i ≠ .resetStats →
      exec i s = .next t → t.unsaturated = true → t.Accounts (pushesAfter i s N)

/-- R189: in `FLUSHED` a well-sized push is refused with ERR_STATE, a flush succeeds and emits
nothing (it writes only the cells, all vacant before and after), a reset returns to `RUN` and the
other five commands do exactly what they do in `RUN`; in `RUN` no command is refused for the phase. -/
def Obligations.CommandsByPhase : Prop :=
  ∀ s : State, s.Inv →
    (s.phase = .flushed →
      exec .flush s = .next { s with
        cells := (List.range s.cfg.nSym).map fun i =>
          List.replicate (s.cfg.lineLen i) ⟨0x00#8, false⟩
        outbox := s.outbox ++ [⟨.ok, .none⟩] } ∧
      (∃ t, exec .reset s = .next t ∧ t.phase = .run) ∧
      (∀ data flags, data.length = s.cfg.nSym → flags.length = s.cfg.nSym →
        exec (.pushC1 data flags) s = .next { s with outbox := s.outbox ++ [⟨.errState, .none⟩] })) ∧
    (∀ i ∈ [Instr.pullData, .pullErr, .getStats, .resetStats, .reportStatus], ∀ t,
      exec i { s with phase := .run } = .next t →
        exec i { s with phase := .flushed } = .next { t with phase := .flushed }) ∧
    (s.phase = .run → ∀ i t, exec i s = .next t →
      t.outbox ≠ s.outbox ++ [⟨.errState, .none⟩])

/-- R7: the derived constants, which configurations a block can be built with, and the constants of
the default configuration. -/
def Obligations.WellFormedConfigurations : Prop :=
  (∀ c : Config,
    c.k = c.nSym - c.nPar ∧ (∀ i, c.d i ≤ c.dmax) ∧
      (c.depth ≠ [] → ∃ i < c.depth.length, c.d i = c.dmax) ∧
      (∀ i, c.lineLen i = c.dmax - c.d i) ∧
      c.bankSize = ((List.range c.nSym).map c.lineLen).sum ∧ c.cmax = 2 ^ c.cw - 1 ∧
      ((construct c).isSome = true ↔
        (2 ≤ c.nSym ∧ c.nSym ≤ 255) ∧ (1 ≤ c.nPar ∧ c.nPar ≤ c.nSym - 1) ∧
          (c.depth.length = c.nSym ∧ ∃ i < c.nSym, c.d i = 0) ∧
          (c.gfPoly.getLsbD 8 = true ∧ gfPow c.gfPoly 0x02#8 255 = 0x01#8 ∧
            ∀ e, 0 < e → e < 255 → gfPow c.gfPoly 0x02#8 e ≠ 0x01#8) ∧
          c.fcr ≤ 254 ∧ (∀ q, c.qcap = some q → c.nSym ≤ q) ∧ 1 ≤ c.cw)) ∧
    Config.default.k = 24 ∧ Config.default.dmax = 108 ∧ Config.default.bankSize = 1512 ∧
    ∀ i < 28, Config.default.lineLen i = 108 - 4 * i

/-- R33: a step of one block leaves every other block as it was, and what it does depends on that
block's own state alone. -/
def Obligations.OtherBlocksUntouched : Prop :=
  ∀ (k : Nat) (bs cs bs' cs' : List State), stepBlock k bs = .next bs' →
    stepBlock k cs = .next cs' → bs[k]? = cs[k]? →
    bs'.length = bs.length ∧ (∀ j, j ≠ k → bs'[j]? = bs[j]?) ∧ bs'[k]? = cs'[k]?

/-- R71: the frames each pseudo-instruction stands for, in the order issued; a push carries at most
255 symbols. -/
def Obligations.PseudoInstructionFrames : Prop :=
  ∀ data : List Byte, data.length ≤ 255 →
    (AsmLine.pushClean data).frames =
        [0x01#8 :: BitVec.ofNat 8 data.length :: BitVec.ofNat 8 data.length ::
          (data ++ List.replicate data.length 0x00#8)] ∧
      (AsmLine.pushErased data).frames =
        [0x01#8 :: BitVec.ofNat 8 data.length :: BitVec.ofNat 8 data.length ::
          (data ++ List.replicate data.length 0x01#8)] ∧
      AsmLine.poll.frames = [[0x02#8], [0x03#8]] ∧
      AsmLine.drain.frames = [[0x04#8], [0x02#8], [0x03#8]]
end

