-- ==== Sys2Proof/Laws/Config.lean ====
section
/-! SUPPORT. The clauses of a well-formed configuration, one lemma each, and the derived constants
(spec/00_scope.md R7). -/

namespace Sys2Proof

theorem Config.wf_nSym {c : Config} (h : c.wf = true) : 2 ≤ c.nSym ∧ c.nSym ≤ 255 := by
  simp only [Config.wf, Bool.and_eq_true, decide_eq_true_eq] at h; omega

theorem Config.wf_nPar {c : Config} (h : c.wf = true) : 1 ≤ c.nPar ∧ c.nPar < c.nSym := by
  simp only [Config.wf, Bool.and_eq_true, decide_eq_true_eq] at h; omega

theorem Config.wf_depth_length {c : Config} (h : c.wf = true) : c.depth.length = c.nSym := by
  simp only [Config.wf, Bool.and_eq_true, decide_eq_true_eq, beq_iff_eq] at h; omega

theorem Config.wf_gfPoly {c : Config} (h : c.wf = true) : Machine.primitive c.gfPoly = true := by
  simp only [Config.wf, Bool.and_eq_true] at h; tauto

theorem foldl_max_ge_init (l : List Nat) (a : Nat) : a ≤ l.foldl max a := by
  induction l generalizing a with
  | nil => simp
  | cons b l ih => exact le_trans (le_max_left a b) (ih _)

theorem foldl_max_ge_mem {l : List Nat} {x : Nat} (a : Nat) (h : x ∈ l) : x ≤ l.foldl max a := by
  induction l generalizing a with
  | nil => simp at h
  | cons b l ih =>
    rcases List.mem_cons.mp h with rfl | h
    · exact le_trans (le_max_right a x) (foldl_max_ge_init l _)
    · exact ih _ h

/-- No delay exceeds `Dmax` (R7). -/
theorem Config.d_le_dmax (c : Config) (i : Nat) : c.d i ≤ c.dmax := by
  unfold Config.d Config.dmax
  by_cases h : i < c.depth.length
  · rw [List.getD_eq_getElem _ _ h]
    exact foldl_max_ge_mem 0 (List.getElem_mem h)
  · rw [List.getD_eq_default _ _ (by omega)]
    omega

theorem foldl_max_attained (l : List Nat) (a : Nat) :
    l.foldl max a = a ∨ ∃ i < l.length, l.getD i 0 = l.foldl max a := by
  induction l generalizing a with
  | nil => simp
  | cons b l ih =>
    rcases ih (max a b) with h | ⟨i, hi, h⟩
    · rw [List.foldl_cons, h]
      by_cases hab : b ≤ a
      · left; omega
      · right; exact ⟨0, by simp, by simp; omega⟩
    · right; exact ⟨i + 1, by simp; omega, by simpa using h⟩

/-- Some position has the largest delay (R7). -/
theorem Config.exists_d_eq_dmax {c : Config} (h : c.wf = true) :
    ∃ i < c.nSym, c.d i = c.dmax := by
  have hn := Config.wf_nSym h
  have hl := Config.wf_depth_length h
  rcases foldl_max_attained c.depth 0 with h0 | ⟨i, hi, h0⟩
  · have := c.d_le_dmax 0
    exact ⟨0, by omega, by unfold Config.dmax at *; omega⟩
  · exact ⟨i, by omega, h0⟩

theorem Config.lineLen_le_dmax (c : Config) (i : Nat) : c.lineLen i ≤ c.dmax := by
  unfold Config.lineLen; omega

theorem Config.lineLen_add_d (c : Config) (i : Nat) : c.lineLen i + c.d i = c.dmax := by
  have := c.d_le_dmax i
  unfold Config.lineLen; omega

end Sys2Proof
end

