-- ==== Sys2Proof/Laws/State.lean ====
section
/-! SUPPORT. One lemma per field of the state and per update, each true by unfolding the update, so
that no later proof unfolds one; and the derived reads (cells, predicates) across the updates that
do not touch what they read. -/

namespace Sys2Proof.Machine

/-! ### `State.reply` -/

@[simp] theorem State.reply_cfg (r : Response) (s : State) : (s.reply r).cfg = s.cfg := rfl

@[simp] theorem State.reply_cells (r : Response) (s : State) : (s.reply r).cells = s.cells := rfl

@[simp] theorem State.reply_fill (r : Response) (s : State) : (s.reply r).fill = s.fill := rfl

@[simp] theorem State.reply_phase (r : Response) (s : State) : (s.reply r).phase = s.phase := rfl

@[simp] theorem State.reply_cnt (r : Response) (s : State) : (s.reply r).cnt = s.cnt := rfl

@[simp] theorem State.reply_qd (r : Response) (s : State) : (s.reply r).qd = s.qd := rfl

@[simp] theorem State.reply_qe (r : Response) (s : State) : (s.reply r).qe = s.qe := rfl

@[simp] theorem State.reply_inbox (r : Response) (s : State) : (s.reply r).inbox = s.inbox := rfl

@[simp] theorem State.reply_outbox (r : Response) (s : State) :
    (s.reply r).outbox = s.outbox ++ [r] := rfl

@[simp] theorem State.reply_diag (r : Response) (s : State) : (s.reply r).diag = s.diag := rfl

@[simp] theorem State.reply_cell (r : Response) (s : State) (i j : Nat) :
    (s.reply r).cell i j = s.cell i j := rfl

@[simp] theorem State.reply_tap (r : Response) (s : State) (x : List Symbol) :
    (s.reply r).tap x = s.tap x := rfl

@[simp] theorem State.reply_ftap (r : Response) (s : State) (F u : Nat) :
    (s.reply r).ftap F u = s.ftap F u := rfl

@[simp] theorem State.reply_primed (r : Response) (s : State) : (s.reply r).primed = s.primed := rfl

@[simp] theorem State.reply_room (r : Response) (s : State) (x : Nat) :
    (s.reply r).room x = s.room x := rfl

/-! ### `State.enqueue` -/

@[simp] theorem State.enqueue_cfg (od : List Byte) (oe : List Bool) (s : State) :
    (s.enqueue od oe).cfg = s.cfg := rfl

@[simp] theorem State.enqueue_cells (od : List Byte) (oe : List Bool) (s : State) :
    (s.enqueue od oe).cells = s.cells := rfl

@[simp] theorem State.enqueue_fill (od : List Byte) (oe : List Bool) (s : State) :
    (s.enqueue od oe).fill = s.fill := rfl

@[simp] theorem State.enqueue_phase (od : List Byte) (oe : List Bool) (s : State) :
    (s.enqueue od oe).phase = s.phase := rfl

@[simp] theorem State.enqueue_cnt (od : List Byte) (oe : List Bool) (s : State) :
    (s.enqueue od oe).cnt = s.cnt := rfl

@[simp] theorem State.enqueue_qd (od : List Byte) (oe : List Bool) (s : State) :
    (s.enqueue od oe).qd = s.qd ++ od := rfl

@[simp] theorem State.enqueue_qe (od : List Byte) (oe : List Bool) (s : State) :
    (s.enqueue od oe).qe = s.qe ++ oe := rfl

@[simp] theorem State.enqueue_inbox (od : List Byte) (oe : List Bool) (s : State) :
    (s.enqueue od oe).inbox = s.inbox := rfl

@[simp] theorem State.enqueue_outbox (od : List Byte) (oe : List Bool) (s : State) :
    (s.enqueue od oe).outbox = s.outbox := rfl

@[simp] theorem State.enqueue_diag (od : List Byte) (oe : List Bool) (s : State) :
    (s.enqueue od oe).diag = s.diag := rfl

@[simp] theorem State.enqueue_cell (od : List Byte) (oe : List Bool) (s : State) (i j : Nat) :
    (s.enqueue od oe).cell i j = s.cell i j := rfl

@[simp] theorem State.enqueue_tap (od : List Byte) (oe : List Bool) (s : State) (x : List Symbol) :
    (s.enqueue od oe).tap x = s.tap x := rfl

@[simp] theorem State.enqueue_ftap (od : List Byte) (oe : List Bool) (s : State) (F u : Nat) :
    (s.enqueue od oe).ftap F u = s.ftap F u := rfl

@[simp] theorem State.enqueue_primed (od : List Byte) (oe : List Bool) (s : State) : (s.enqueue od oe).primed = s.primed := rfl

/-! ### `State.emptyQd` -/

@[simp] theorem State.emptyQd_cfg (s : State) : s.emptyQd.cfg = s.cfg := rfl

@[simp] theorem State.emptyQd_cells (s : State) : s.emptyQd.cells = s.cells := rfl

@[simp] theorem State.emptyQd_fill (s : State) : s.emptyQd.fill = s.fill := rfl

@[simp] theorem State.emptyQd_phase (s : State) : s.emptyQd.phase = s.phase := rfl

@[simp] theorem State.emptyQd_cnt (s : State) : s.emptyQd.cnt = s.cnt := rfl

@[simp] theorem State.emptyQd_qd (s : State) : s.emptyQd.qd = [] := rfl

@[simp] theorem State.emptyQd_qe (s : State) : s.emptyQd.qe = s.qe := rfl

@[simp] theorem State.emptyQd_inbox (s : State) : s.emptyQd.inbox = s.inbox := rfl

@[simp] theorem State.emptyQd_outbox (s : State) : s.emptyQd.outbox = s.outbox := rfl

@[simp] theorem State.emptyQd_diag (s : State) : s.emptyQd.diag = s.diag := rfl

@[simp] theorem State.emptyQd_cell (s : State) (i j : Nat) :
    s.emptyQd.cell i j = s.cell i j := rfl

@[simp] theorem State.emptyQd_tap (s : State) (x : List Symbol) :
    s.emptyQd.tap x = s.tap x := rfl

@[simp] theorem State.emptyQd_ftap (s : State) (F u : Nat) :
    s.emptyQd.ftap F u = s.ftap F u := rfl

@[simp] theorem State.emptyQd_primed (s : State) : s.emptyQd.primed = s.primed := rfl

/-! ### `State.emptyQe` -/

@[simp] theorem State.emptyQe_cfg (s : State) : s.emptyQe.cfg = s.cfg := rfl

@[simp] theorem State.emptyQe_cells (s : State) : s.emptyQe.cells = s.cells := rfl

@[simp] theorem State.emptyQe_fill (s : State) : s.emptyQe.fill = s.fill := rfl

@[simp] theorem State.emptyQe_phase (s : State) : s.emptyQe.phase = s.phase := rfl

@[simp] theorem State.emptyQe_cnt (s : State) : s.emptyQe.cnt = s.cnt := rfl

@[simp] theorem State.emptyQe_qd (s : State) : s.emptyQe.qd = s.qd := rfl

@[simp] theorem State.emptyQe_qe (s : State) : s.emptyQe.qe = [] := rfl

@[simp] theorem State.emptyQe_inbox (s : State) : s.emptyQe.inbox = s.inbox := rfl

@[simp] theorem State.emptyQe_outbox (s : State) : s.emptyQe.outbox = s.outbox := rfl

@[simp] theorem State.emptyQe_diag (s : State) : s.emptyQe.diag = s.diag := rfl

@[simp] theorem State.emptyQe_cell (s : State) (i j : Nat) :
    s.emptyQe.cell i j = s.cell i j := rfl

@[simp] theorem State.emptyQe_tap (s : State) (x : List Symbol) :
    s.emptyQe.tap x = s.tap x := rfl

@[simp] theorem State.emptyQe_ftap (s : State) (F u : Nat) :
    s.emptyQe.ftap F u = s.ftap F u := rfl

@[simp] theorem State.emptyQe_primed (s : State) : s.emptyQe.primed = s.primed := rfl

/-! ### `State.count` -/

@[simp] theorem State.count_cfg (o : CodewordOutcome) (s : State) : (s.count o).cfg = s.cfg := rfl

@[simp] theorem State.count_cells (o : CodewordOutcome) (s : State) :
    (s.count o).cells = s.cells := rfl

@[simp] theorem State.count_fill (o : CodewordOutcome) (s : State) :
    (s.count o).fill = s.fill := rfl

@[simp] theorem State.count_phase (o : CodewordOutcome) (s : State) :
    (s.count o).phase = s.phase := rfl

@[simp] theorem State.count_cnt (o : CodewordOutcome) (s : State) :
    (s.count o).cnt = s.cnt.bump s.cfg.cmax o := rfl

@[simp] theorem State.count_qd (o : CodewordOutcome) (s : State) : (s.count o).qd = s.qd := rfl

@[simp] theorem State.count_qe (o : CodewordOutcome) (s : State) : (s.count o).qe = s.qe := rfl

@[simp] theorem State.count_inbox (o : CodewordOutcome) (s : State) :
    (s.count o).inbox = s.inbox := rfl

@[simp] theorem State.count_outbox (o : CodewordOutcome) (s : State) :
    (s.count o).outbox = s.outbox := rfl

@[simp] theorem State.count_diag (o : CodewordOutcome) (s : State) :
    (s.count o).diag = s.diag := rfl

@[simp] theorem State.count_cell (o : CodewordOutcome) (s : State) (i j : Nat) :
    (s.count o).cell i j = s.cell i j := rfl

@[simp] theorem State.count_tap (o : CodewordOutcome) (s : State) (x : List Symbol) :
    (s.count o).tap x = s.tap x := rfl

@[simp] theorem State.count_ftap (o : CodewordOutcome) (s : State) (F u : Nat) :
    (s.count o).ftap F u = s.ftap F u := rfl

@[simp] theorem State.count_primed (o : CodewordOutcome) (s : State) : (s.count o).primed = s.primed := rfl

@[simp] theorem State.count_room (o : CodewordOutcome) (s : State) (x : Nat) :
    (s.count o).room x = s.room x := rfl

/-! ### `State.clearCounters` -/

@[simp] theorem State.clearCounters_cfg (s : State) : s.clearCounters.cfg = s.cfg := rfl

@[simp] theorem State.clearCounters_cells (s : State) : s.clearCounters.cells = s.cells := rfl

@[simp] theorem State.clearCounters_fill (s : State) : s.clearCounters.fill = s.fill := rfl

@[simp] theorem State.clearCounters_phase (s : State) : s.clearCounters.phase = s.phase := rfl

@[simp] theorem State.clearCounters_cnt (s : State) : s.clearCounters.cnt = Counters.zero := rfl

@[simp] theorem State.clearCounters_qd (s : State) : s.clearCounters.qd = s.qd := rfl

@[simp] theorem State.clearCounters_qe (s : State) : s.clearCounters.qe = s.qe := rfl

@[simp] theorem State.clearCounters_inbox (s : State) : s.clearCounters.inbox = s.inbox := rfl

@[simp] theorem State.clearCounters_outbox (s : State) : s.clearCounters.outbox = s.outbox := rfl

@[simp] theorem State.clearCounters_diag (s : State) : s.clearCounters.diag = s.diag := rfl

@[simp] theorem State.clearCounters_cell (s : State) (i j : Nat) :
    s.clearCounters.cell i j = s.cell i j := rfl

@[simp] theorem State.clearCounters_tap (s : State) (x : List Symbol) :
    s.clearCounters.tap x = s.tap x := rfl

@[simp] theorem State.clearCounters_ftap (s : State) (F u : Nat) :
    s.clearCounters.ftap F u = s.ftap F u := rfl

@[simp] theorem State.clearCounters_primed (s : State) : s.clearCounters.primed = s.primed := rfl

@[simp] theorem State.clearCounters_room (s : State) (x : Nat) :
    s.clearCounters.room x = s.room x := rfl

/-! ### `State.setPhase` -/

@[simp] theorem State.setPhase_cfg (p : Phase) (s : State) : (s.setPhase p).cfg = s.cfg := rfl

@[simp] theorem State.setPhase_cells (p : Phase) (s : State) :
    (s.setPhase p).cells = s.cells := rfl

@[simp] theorem State.setPhase_fill (p : Phase) (s : State) : (s.setPhase p).fill = s.fill := rfl

@[simp] theorem State.setPhase_phase (p : Phase) (s : State) : (s.setPhase p).phase = p := rfl

@[simp] theorem State.setPhase_cnt (p : Phase) (s : State) : (s.setPhase p).cnt = s.cnt := rfl

@[simp] theorem State.setPhase_qd (p : Phase) (s : State) : (s.setPhase p).qd = s.qd := rfl

@[simp] theorem State.setPhase_qe (p : Phase) (s : State) : (s.setPhase p).qe = s.qe := rfl

@[simp] theorem State.setPhase_inbox (p : Phase) (s : State) :
    (s.setPhase p).inbox = s.inbox := rfl

@[simp] theorem State.setPhase_outbox (p : Phase) (s : State) :
    (s.setPhase p).outbox = s.outbox := rfl

@[simp] theorem State.setPhase_diag (p : Phase) (s : State) : (s.setPhase p).diag = s.diag := rfl

@[simp] theorem State.setPhase_cell (p : Phase) (s : State) (i j : Nat) :
    (s.setPhase p).cell i j = s.cell i j := rfl

@[simp] theorem State.setPhase_tap (p : Phase) (s : State) (x : List Symbol) :
    (s.setPhase p).tap x = s.tap x := rfl

@[simp] theorem State.setPhase_ftap (p : Phase) (s : State) (F u : Nat) :
    (s.setPhase p).ftap F u = s.ftap F u := rfl

@[simp] theorem State.setPhase_primed (p : Phase) (s : State) : (s.setPhase p).primed = s.primed := rfl

@[simp] theorem State.setPhase_room (p : Phase) (s : State) (x : Nat) :
    (s.setPhase p).room x = s.room x := rfl

/-! ### `State.logDiag` -/

@[simp] theorem State.logDiag_cfg (s : State) : s.logDiag.cfg = s.cfg := rfl

@[simp] theorem State.logDiag_cells (s : State) : s.logDiag.cells = s.cells := rfl

@[simp] theorem State.logDiag_fill (s : State) : s.logDiag.fill = s.fill := rfl

@[simp] theorem State.logDiag_phase (s : State) : s.logDiag.phase = s.phase := rfl

@[simp] theorem State.logDiag_cnt (s : State) : s.logDiag.cnt = s.cnt := rfl

@[simp] theorem State.logDiag_qd (s : State) : s.logDiag.qd = s.qd := rfl

@[simp] theorem State.logDiag_qe (s : State) : s.logDiag.qe = s.qe := rfl

@[simp] theorem State.logDiag_inbox (s : State) : s.logDiag.inbox = s.inbox := rfl

@[simp] theorem State.logDiag_outbox (s : State) : s.logDiag.outbox = s.outbox := rfl

@[simp] theorem State.logDiag_diag (s : State) : s.logDiag.diag = s.diag ++ [s.cnt] := rfl

@[simp] theorem State.logDiag_cell (s : State) (i j : Nat) :
    s.logDiag.cell i j = s.cell i j := rfl

@[simp] theorem State.logDiag_tap (s : State) (x : List Symbol) :
    s.logDiag.tap x = s.tap x := rfl

@[simp] theorem State.logDiag_ftap (s : State) (F u : Nat) :
    s.logDiag.ftap F u = s.ftap F u := rfl

@[simp] theorem State.logDiag_primed (s : State) : s.logDiag.primed = s.primed := rfl

@[simp] theorem State.logDiag_room (s : State) (x : Nat) :
    s.logDiag.room x = s.room x := rfl

/-! ### `State.giveFrame` -/

@[simp] theorem State.giveFrame_cfg (G : Frame) (s : State) : (s.giveFrame G).cfg = s.cfg := rfl

@[simp] theorem State.giveFrame_cells (G : Frame) (s : State) :
    (s.giveFrame G).cells = s.cells := rfl

@[simp] theorem State.giveFrame_fill (G : Frame) (s : State) :
    (s.giveFrame G).fill = s.fill := rfl

@[simp] theorem State.giveFrame_phase (G : Frame) (s : State) :
    (s.giveFrame G).phase = s.phase := rfl

@[simp] theorem State.giveFrame_cnt (G : Frame) (s : State) : (s.giveFrame G).cnt = s.cnt := rfl

@[simp] theorem State.giveFrame_qd (G : Frame) (s : State) : (s.giveFrame G).qd = s.qd := rfl

@[simp] theorem State.giveFrame_qe (G : Frame) (s : State) : (s.giveFrame G).qe = s.qe := rfl

@[simp] theorem State.giveFrame_inbox (G : Frame) (s : State) :
    (s.giveFrame G).inbox = G :: s.inbox := rfl

@[simp] theorem State.giveFrame_outbox (G : Frame) (s : State) :
    (s.giveFrame G).outbox = s.outbox := rfl

@[simp] theorem State.giveFrame_diag (G : Frame) (s : State) :
    (s.giveFrame G).diag = s.diag := rfl

@[simp] theorem State.giveFrame_cell (G : Frame) (s : State) (i j : Nat) :
    (s.giveFrame G).cell i j = s.cell i j := rfl

@[simp] theorem State.giveFrame_tap (G : Frame) (s : State) (x : List Symbol) :
    (s.giveFrame G).tap x = s.tap x := rfl

@[simp] theorem State.giveFrame_ftap (G : Frame) (s : State) (F u : Nat) :
    (s.giveFrame G).ftap F u = s.ftap F u := rfl

@[simp] theorem State.giveFrame_primed (G : Frame) (s : State) : (s.giveFrame G).primed = s.primed := rfl

@[simp] theorem State.giveFrame_room (G : Frame) (s : State) (x : Nat) :
    (s.giveFrame G).room x = s.room x := rfl

/-! ### `State.shift` -/

@[simp] theorem State.shift_cfg (sym : List Symbol) (s : State) : (s.shift sym).cfg = s.cfg := rfl

@[simp] theorem State.shift_cells (sym : List Symbol) (s : State) :
    (s.shift sym).cells = (List.range s.cfg.nSym).map (s.shiftedLine sym) := rfl

@[simp] theorem State.shift_fill (sym : List Symbol) (s : State) :
    (s.shift sym).fill = min (s.fill + 1) s.cfg.dmax := rfl

@[simp] theorem State.shift_phase (sym : List Symbol) (s : State) :
    (s.shift sym).phase = s.phase := rfl

@[simp] theorem State.shift_cnt (sym : List Symbol) (s : State) : (s.shift sym).cnt = s.cnt := rfl

@[simp] theorem State.shift_qd (sym : List Symbol) (s : State) : (s.shift sym).qd = s.qd := rfl

@[simp] theorem State.shift_qe (sym : List Symbol) (s : State) : (s.shift sym).qe = s.qe := rfl

@[simp] theorem State.shift_inbox (sym : List Symbol) (s : State) :
    (s.shift sym).inbox = s.inbox := rfl

@[simp] theorem State.shift_outbox (sym : List Symbol) (s : State) :
    (s.shift sym).outbox = s.outbox := rfl

@[simp] theorem State.shift_diag (sym : List Symbol) (s : State) :
    (s.shift sym).diag = s.diag := rfl

@[simp] theorem State.shift_room (sym : List Symbol) (s : State) (x : Nat) :
    (s.shift sym).room x = s.room x := rfl

/-! ### `State.clearBank` -/

@[simp] theorem State.clearBank_cfg (s : State) : s.clearBank.cfg = s.cfg := rfl

@[simp] theorem State.clearBank_cells (s : State) :
    s.clearBank.cells = (List.range s.cfg.nSym).map fun i => List.replicate (s.cfg.lineLen i) Symbol.vacant := rfl

@[simp] theorem State.clearBank_fill (s : State) : s.clearBank.fill = 0 := rfl

@[simp] theorem State.clearBank_phase (s : State) : s.clearBank.phase = s.phase := rfl

@[simp] theorem State.clearBank_cnt (s : State) : s.clearBank.cnt = s.cnt := rfl

@[simp] theorem State.clearBank_qd (s : State) : s.clearBank.qd = s.qd := rfl

@[simp] theorem State.clearBank_qe (s : State) : s.clearBank.qe = s.qe := rfl

@[simp] theorem State.clearBank_inbox (s : State) : s.clearBank.inbox = s.inbox := rfl

@[simp] theorem State.clearBank_outbox (s : State) : s.clearBank.outbox = s.outbox := rfl

@[simp] theorem State.clearBank_diag (s : State) : s.clearBank.diag = s.diag := rfl

@[simp] theorem State.clearBank_room (s : State) (x : Nat) :
    s.clearBank.room x = s.room x := rfl

end Sys2Proof.Machine
end

