-- ==== Sys2Proof/Laws/Ops.lean ====
section
/-! SUPPORT. What each shared operation can do, said once: responses, counters, room, the command
stream, construction. -/

namespace Sys2Proof.Machine

/-! ### Responses and refusals -/

@[simp] theorem respond_eq (p : Payload) (s : State) : respond p s = .next (s.reply ⟨.ok, p⟩) := rfl
@[simp] theorem raise_eq (st : Status) (s : State) : raise st s = .next (s.reply ⟨st, .none⟩) := rfl

/-! ### Counters -/

theorem saturatingIncr_le (cmax v : Nat) : saturatingIncr cmax v ≤ cmax := Nat.min_le_right _ _

theorem le_saturatingIncr {cmax v : Nat} (h : v ≤ cmax) : v ≤ saturatingIncr cmax v := by
  unfold saturatingIncr; omega

theorem saturatingIncr_of_lt {cmax v : Nat} (h : saturatingIncr cmax v < cmax) :
    saturatingIncr cmax v = v + 1 := by
  unfold saturatingIncr at *; omega

@[simp] theorem Counters.bump_passed (cmax : Nat) (c : Counters) :
    c.bump cmax .passed = { c with passed := saturatingIncr cmax c.passed } := rfl
@[simp] theorem Counters.bump_corrected (cmax : Nat) (c : Counters) :
    c.bump cmax .corrected = { c with corrected := saturatingIncr cmax c.corrected } := rfl
@[simp] theorem Counters.bump_failed (cmax : Nat) (c : Counters) :
    c.bump cmax .failed = { c with failed := saturatingIncr cmax c.failed } := rfl
@[simp] theorem Counters.bump_flushed (cmax : Nat) (c : Counters) :
    c.bump cmax .flushed = { c with flushed := saturatingIncr cmax c.flushed } := rfl

theorem State.count_countersFit {s : State} (o : CodewordOutcome) (h : s.CountersFit) :
    (s.count o).CountersFit := by
  obtain ⟨h1, h2, h3, h4⟩ := h
  cases o <;> exact ⟨by simp [saturatingIncr_le, *], by simp [saturatingIncr_le, *],
    by simp [saturatingIncr_le, *], by simp [saturatingIncr_le, *]⟩

/-! ### Room -/

/-- `room(x)` in numbers: with a finite `QCAP` both FIFOs can take `x` more (R29). -/
theorem State.room_iff {s : State} {x : Nat} :
    s.room x = true ↔ ∀ q, s.cfg.qcap = some q → s.qd.length + x ≤ q ∧ s.qe.length + x ≤ q := by
  unfold State.room
  cases s.cfg.qcap <;> simp

theorem State.room_mono {s : State} {x y : Nat} (hxy : y ≤ x) (h : s.room x = true) :
    s.room y = true := by
  rw [State.room_iff] at *
  intro q hq
  have := h q hq
  omega

/-- Appending the same number of elements to both FIFOs uses up that much room (R180). -/
theorem State.room_enqueue {s : State} {od : List Byte} {oe : List Bool} {x : Nat}
    (h : od.length = oe.length) : (s.enqueue od oe).room x = s.room (od.length + x) := by
  rw [Bool.eq_iff_iff, State.room_iff, State.room_iff]
  simp only [State.enqueue_cfg, State.enqueue_qd, State.enqueue_qe, List.length_append, ← h,
    Nat.add_assoc]

/-! ### Predicates in numbers -/

@[simp] theorem State.valid_iff {s : State} {i j : Nat} : s.valid i j = true ↔ j < s.fill := by
  simp [State.valid]

theorem State.primed_iff {s : State} : s.primed = true ↔ s.fill = s.cfg.dmax := by
  simp [State.primed]

theorem State.unsaturated_iff {s : State} :
    s.unsaturated = true ↔ s.cnt.passed < s.cfg.cmax ∧ s.cnt.corrected < s.cfg.cmax ∧
      s.cnt.failed < s.cfg.cmax ∧ s.cnt.flushed < s.cfg.cmax := by
  simp [State.unsaturated, and_assoc]

/-! ### The command stream -/

theorem State.takeFrame_nil {s : State} (h : s.inbox = []) : s.takeFrame = none := by
  simp [State.takeFrame, h]

theorem State.takeFrame_cons {s : State} {F : Frame} {rest : List Frame}
    (h : s.inbox = F :: rest) : s.takeFrame = some (F, { s with inbox := rest }) := by
  simp [State.takeFrame, h]

@[simp] theorem State.takeFrame_giveFrame (F : Frame) (s : State) :
    (s.giveFrame F).takeFrame = some (F, s) := rfl

/-! ### Construction -/

theorem construct_eq_some {cfg : Config} (h : cfg.wf = true) :
    construct cfg = some (State.powerOn cfg h) := by simp [construct, h]

theorem construct_eq_none {cfg : Config} : construct cfg = none ↔ cfg.wf = false := by
  simp [construct]

end Sys2Proof.Machine
end

