-- ==== Sys2Proof/Laws/Bank.lean ====
section
/-! SUPPORT. The delay bank: every operation on it keeps its shape, and what a cell holds after
`SHIFT` and `CLEAR` (spec/10_state.md R21, spec/42_deinterleaver.md R142 to R151). -/

namespace Sys2Proof.Machine

/-- A bank written line by line has `n` lines, line `i` being the `i`-th. -/
theorem getD_map_range {α : Type} (n i : Nat) (f : Nat → α) (d : α) (h : i < n) :
    ((List.range n).map f).getD i d = f i := by
  simp [h]

/-! ### Lines and cells after each operation -/

theorem State.shift_line {s : State} (sym : List Symbol) {i : Nat} (h : i < s.cfg.nSym) :
    (s.shift sym).line i = s.shiftedLine sym i := by
  simp [State.line, h]

theorem State.clearBank_line {s : State} {i : Nat} (h : i < s.cfg.nSym) :
    s.clearBank.line i = List.replicate (s.cfg.lineLen i) Symbol.vacant := by
  simp [State.line, h]

theorem State.powerOn_line {cfg : Config} (hc : cfg.wf = true) {i : Nat} (h : i < cfg.nSym) :
    (State.powerOn cfg hc).line i = List.replicate (cfg.lineLen i) Symbol.vacant := by
  simp [State.line, State.powerOn, h]

/-- `SHIFT` moves every stage up by one and puts the incoming symbol in stage 0 (R143). -/
theorem State.shift_cell {s : State} (sym : List Symbol) {i j : Nat} (hi : i < s.cfg.nSym)
    (hj : j < s.cfg.lineLen i) :
    (s.shift sym).cell i j =
      if j = 0 then sym.getD i Symbol.vacant else s.cell i (j - 1) := by
  unfold State.cell
  rw [State.shift_line sym hi]
  cases j with
  | zero => simp [State.shiftedLine, List.getD_eq_getElem?_getD, hj]
  | succ k => simp [State.shiftedLine, List.getD_eq_getElem?_getD, hj]

theorem replicate_getD_self {α : Type} (n j : Nat) (x : α) : (List.replicate n x).getD j x = x := by
  by_cases h : j < n <;> simp [h]

/-- After `CLEAR` every cell reads vacant (R151). -/
theorem State.clearBank_cell {s : State} {i : Nat} (j : Nat) (hi : i < s.cfg.nSym) :
    s.clearBank.cell i j = Symbol.vacant := by
  unfold State.cell
  rw [State.clearBank_line hi, replicate_getD_self]

/-- Right after power-on every cell reads vacant (R31). -/
theorem State.powerOn_cell {cfg : Config} (hc : cfg.wf = true) {i : Nat} (j : Nat)
    (hi : i < cfg.nSym) : (State.powerOn cfg hc).cell i j = Symbol.vacant := by
  unfold State.cell
  rw [State.powerOn_line hc hi, replicate_getD_self]

/-! ### The shape is kept -/

theorem State.shift_bankShape {s : State} (sym : List Symbol) (h : s.BankShape) :
    (s.shift sym).BankShape := by
  refine ⟨by simp, fun i hi => ?_⟩
  have hl := h.2 i hi
  rw [State.shift_line (s := s) sym hi]
  simp [State.shiftedLine, hl]

theorem State.clearBank_bankShape (s : State) : s.clearBank.BankShape := by
  refine ⟨by simp, fun i hi => ?_⟩
  rw [State.clearBank_line (s := s) hi]
  simp

theorem State.powerOn_bankShape (cfg : Config) (hc : cfg.wf = true) :
    (State.powerOn cfg hc).BankShape := by
  refine ⟨by simp [State.powerOn], fun i hi => ?_⟩
  rw [State.powerOn_line hc hi]
  simp [State.powerOn]

/-- An update that keeps the configuration and the cells keeps the shape. -/
theorem State.bankShape_of_cells {s t : State} (hcfg : t.cfg = s.cfg) (hcells : t.cells = s.cells)
    (h : s.BankShape) : t.BankShape := by
  unfold State.BankShape State.line at *
  rw [hcfg, hcells]
  exact h

/-! ### Taps -/

@[simp] theorem State.tap_length (sym : List Symbol) (s : State) :
    (s.tap sym).length = s.cfg.nSym := by simp [State.tap]

@[simp] theorem State.ftap_length (F u : Nat) (s : State) :
    (s.ftap F u).length = s.cfg.nSym := by simp [State.ftap]

/-- Position `i` of a tapped codeword (R142). -/
theorem State.tap_getD {s : State} (sym : List Symbol) {i : Nat} (h : i < s.cfg.nSym) :
    (s.tap sym).getD i Symbol.vacant =
      if s.cfg.lineLen i = 0 then sym.getD i Symbol.vacant
      else s.cell i (s.cfg.lineLen i - 1) := by
  rw [State.tap, getD_map_range _ _ _ _ h]

/-- Position `i` of a flush codeword (R150). -/
theorem State.ftap_getD {s : State} (F u : Nat) {i : Nat} (h : i < s.cfg.nSym) :
    (s.ftap F u).getD i Symbol.vacant =
      if missingAt s.cfg F u i then Symbol.missing else s.cell i (F - 1 - u - s.cfg.d i) := by
  rw [State.ftap, getD_map_range _ _ _ _ h]

theorem missingAt_iff {cfg : Config} {F u i : Nat} :
    missingAt cfg F u i = true ↔ F < cfg.d i + u + 1 := by simp [missingAt]

theorem mem_ftapMiss {cfg : Config} {F u i : Nat} :
    i ∈ ftapMiss cfg F u ↔ i < cfg.nSym ∧ F < cfg.d i + u + 1 := by
  simp [ftapMiss, missingAt_iff]

@[simp] theorem symbols_length {data : List Byte} {flags : List Bool}
    (h : flags.length = data.length) : (symbols data flags).length = data.length := by
  simp [symbols, h]

/-- Symbol `p` of a pushed codeword is data byte `p` with flag `p` (R66). -/
theorem symbols_getD {data : List Byte} {flags : List Bool} {p : Nat} (hd : p < data.length)
    (hf : p < flags.length) :
    (symbols data flags).getD p Symbol.vacant = ⟨data.getD p 0#8, flags.getD p false⟩ := by
  simp [symbols, hd, hf]

end Sys2Proof.Machine
end

