-- ==== Sys2Proof/Laws/Decode.lean ====
section
/-! SUPPORT. The pieces of the decoder and of the encoder, one lemma each (spec/30_encoding.md). -/

namespace Sys2Proof

@[simp] theorem decode_nil : decode [] = .error .errFormat := rfl

@[simp] theorem decode_push (rest : Frame) : decode (0x01#8 :: rest) = decodePush rest := by
  simp [decode]

/-- A format P frame after its opcode and two length bytes (R63, R69). -/
theorem decodePush_cons (dlen flen : Byte) (body : Frame) :
    decodePush (dlen :: flen :: body) =
      if body.length ≠ dlen.toNat + flen.toNat then .error .errFormat
      else if (body.drop dlen.toNat).any (fun b => 1 < b.toNat) then .error .errFormat
      else .ok (.pushC1 (body.take dlen.toNat) ((body.drop dlen.toNat).map (· == 0x01#8))) := rfl

theorem decodePush_short {rest : Frame} (h : rest.length < 2) :
    decodePush rest = .error .errFormat := by
  match rest with
  | [] => rfl
  | [_] => rfl

/-- The decoder's own refusals are ERR_OPCODE and ERR_FORMAT (R202, R203). -/
theorem decode_error_ne_ok {F : Frame} {st : Status} (h : decode F = .error st) : st ≠ .ok := by
  rintro rfl
  match F with
  | [] => simp at h
  | op :: rest =>
    simp only [decode, decodePush] at h
    repeat (split at h <;> try simp at h)

theorem formatZ_opcode_ne {op : Byte} {i : Instr} (h : formatZ op = some i) : op ≠ 0x01#8 := by
  rintro rfl
  simp [formatZ] at h

/-- The format Z opcodes are exactly `0x02..0x08`, and each names the command it encodes (R61). -/
theorem formatZ_eq_some {op : Byte} {i : Instr} (h : formatZ op = some i) :
    encode i = [op] ∧ i.wf = true := by
  have hop : op = BitVec.ofNat 8 op.toNat := by simp
  unfold formatZ at h
  split at h <;> simp_all <;> subst h <;> simp_all [encode, Instr.opcode, Instr.wf]

theorem formatZ_eq_none {op : Byte} : formatZ op = none ↔ op.toNat < 2 ∨ 8 < op.toNat := by
  unfold formatZ
  split <;> simp_all
  omega

theorem decode_formatZ {op : Byte} {i : Instr} (rest : Frame) (h : formatZ op = some i) :
    decode (op :: rest) = if rest = [] then .ok i else .error .errFormat := by
  simp [decode, formatZ_opcode_ne h, h]

theorem decode_illegal {op : Byte} (rest : Frame) (h1 : op ≠ 0x01#8) (h : formatZ op = none) :
    decode (op :: rest) = .error .errOpcode := by
  simp [decode, h1, h]

/-! ### Flag bytes -/

@[simp] theorem flagByte_toNat_le (f : Bool) : (flagByte f).toNat ≤ 1 := by
  cases f <;> simp [flagByte]

theorem flagBytes_not_reserved (flags : List Bool) :
    (flags.map flagByte).any (fun b => 1 < b.toNat) = false := by
  simp only [List.any_map, List.any_eq_false, Function.comp_apply, decide_eq_true_eq]
  intro f _
  have := flagByte_toNat_le f
  omega

theorem flagBytes_read (flags : List Bool) :
    (flags.map flagByte).map (· == 0x01#8) = flags := by
  induction flags with
  | nil => rfl
  | cons f flags ih => cases f <;> simp_all [flagByte]

/-- Bytes that are not reserved are the flag bytes of the flags they are read as (R64). -/
theorem flagBytes_of_not_reserved {l : List Byte}
    (h : l.any (fun b => 1 < b.toNat) = false) : (l.map (· == 0x01#8)).map flagByte = l := by
  induction l with
  | nil => rfl
  | cons b l ih =>
    simp only [List.any_cons, Bool.or_eq_false_iff, decide_eq_false_iff_not] at h
    have hb : b = 0x00#8 ∨ b = 0x01#8 := by
      have hb' : b.toNat = 0 ∨ b.toNat = 1 := by omega
      rcases hb' with hb' | hb'
      · left; apply BitVec.eq_of_toNat_eq; simpa using hb'
      · right; apply BitVec.eq_of_toNat_eq; simpa using hb'
    rw [List.map_cons, List.map_cons, ih h.2]
    rcases hb with rfl | rfl <;> simp [flagByte]

/-! ### Lengths -/

@[simp] theorem leBytes_length (k v : Nat) : (leBytes k v).length = k := by simp [leBytes]

theorem leBytes_getElem {k v b : Nat} (h : b < (leBytes k v).length) :
    (leBytes k v)[b] = BitVec.ofNat 8 (v / 256 ^ b) := by simp [leBytes]

end Sys2Proof
end

