-- ==== Sys2Proof/Laws/Emission.lean ====
section
/-! SUPPORT. What an emitted codeword is and what `EMIT` and the loop of `FLUSH` do to the state,
said once (spec/43_orchestrator.md R162 to R164, spec/44_fifo_flush.md R185, R186). -/

namespace Sys2Proof.Machine

/-! ### The decoder's result -/

@[simp] theorem correct_length (c : Config) (w : List Byte) (ys : List (Nat × Byte)) :
    (correct c w ys).length = c.nSym := by simp [correct]

/-- Steps 4 to 12 never answer `Passed`, and a word they correct has all syndromes zero and comes
from error values found at the erased and located positions (R118 to R124). -/
theorem rsCorrect_cases (c : Config) (w : List Byte) (E : List Nat) :
    rsCorrect c w E = .failed ∨
      ∃ lam ys,
        errorLocator c (modifiedSyndromes c (syndromes c w) (erasureLocator c E) E.length)
            = some lam ∧
          (chien c lam E).length + 1 = lam.length ∧
          errorValues c (syndromes c w) lam (erasureLocator c E) (E ++ chien c lam E) = some ys ∧
          allZero (syndromes c (correct c w ys)) = true ∧
          rsCorrect c w E = .corrected (correct c w ys) := by
  unfold rsCorrect
  dsimp only
  split
  · exact .inl rfl
  · rename_i lam hlam
    split
    · exact .inl rfl
    · rename_i hQ
      split
      · exact .inl rfl
      · rename_i ys hys
        split
        · rename_i hz
          exact .inr ⟨lam, ys, hlam, not_not.mp hQ, hys, hz, rfl⟩
        · exact .inl rfl

/-- The three ways `RSDEC` ends (R113, R115, R125). -/
theorem rsDecode_cases (c : Config) (w : List Byte) (E : List Nat) :
    (c.nPar < E.length ∧ rsDecode c w E = .failed) ∨
      (E = [] ∧ allZero (syndromes c w) = true ∧ rsDecode c w E = .passed w) ∨
      (E.length ≤ c.nPar ∧ ¬ (E = [] ∧ allZero (syndromes c w) = true) ∧
        rsDecode c w E = rsCorrect c w E) := by
  unfold rsDecode
  split
  · exact .inl ⟨‹_›, rfl⟩
  · split
    · rename_i h
      exact .inr (.inl ⟨h.1, h.2, rfl⟩)
    · exact .inr (.inr ⟨by omega, ‹_›, rfl⟩)

theorem rsDecode_passed {c : Config} {w v : List Byte} {E : List Nat}
    (h : rsDecode c w E = .passed v) : v = w ∧ E = [] ∧ allZero (syndromes c w) = true := by
  rcases rsDecode_cases c w E with ⟨_, h'⟩ | ⟨hE, hS, h'⟩ | ⟨_, _, h'⟩
  · simp [h'] at h
  · rw [h'] at h
    exact ⟨by simpa using h.symm, hE, hS⟩
  · rw [h'] at h
    rcases rsCorrect_cases c w E with h'' | ⟨_, _, _, _, _, _, h''⟩ <;> simp [h''] at h

theorem rsDecode_corrected {c : Config} {w v : List Byte} {E : List Nat}
    (h : rsDecode c w E = .corrected v) :
    E.length ≤ c.nPar ∧ v.length = c.nSym ∧ allZero (syndromes c v) = true := by
  rcases rsDecode_cases c w E with ⟨_, h'⟩ | ⟨_, _, h'⟩ | ⟨hE, _, h'⟩
  · simp [h'] at h
  · simp [h'] at h
  · rw [h'] at h
    rcases rsCorrect_cases c w E with h'' | ⟨_, _, _, _, _, hz, h''⟩
    · simp [h''] at h
    · rw [h''] at h
      obtain rfl : correct c w _ = v := by simpa using h
      exact ⟨hE, correct_length _ _ _, hz⟩

/-! ### One codeword -/

@[simp] theorem tapBytes_length (tap : List Symbol) : (tapBytes tap).length = tap.length := by
  simp [tapBytes]

@[simp] theorem failedBytes_length (cfg : Config) (w : List Byte) :
    (failedBytes cfg w).length = w.length := by
  unfold failedBytes; cases cfg.failPolicy <;> simp

@[simp] theorem flushedBytes_length (cfg : Config) (w : List Byte) (miss : List Nat) :
    (flushedBytes cfg w miss).length = w.length := by simp [flushedBytes]

/-- A codeword with a missing position is `Flushed`, whatever it holds (R162, R186). -/
theorem emission_of_missing {cfg : Config} {tap : List Symbol} {miss : List Nat}
    (h : miss ≠ []) :
    emission cfg tap miss =
      ⟨.flushed, flushedBytes cfg (tapBytes tap) miss, tap.map fun _ => true⟩ := by
  simp [emission, h, tapBytes]

/-- Exactly `n` bytes are appended per codeword (R162). -/
theorem emission_od_length {cfg : Config} {tap : List Symbol} (miss : List Nat)
    (h : tap.length = cfg.nSym) : (emission cfg tap miss).od.length = cfg.nSym := by
  unfold emission
  dsimp only
  split
  · simp [h]
  · split
    · rename_i hp
      rw [(rsDecode_passed hp).1]
      simp [h]
    · rename_i hc
      exact (rsDecode_corrected hc).2.1
    · simp [h]

/-- Exactly as many flags as positions are appended per codeword (R162). -/
theorem emission_oe_length (cfg : Config) (tap : List Symbol) (miss : List Nat) :
    (emission cfg tap miss).oe.length = tap.length := by
  unfold emission
  dsimp only
  split
  · simp
  · split <;> simp

/-! ### `EMIT` -/

@[simp] theorem State.emit_cfg (tap : List Symbol) (miss : List Nat) (s : State) :
    (s.emit tap miss).cfg = s.cfg := rfl
@[simp] theorem State.emit_cells (tap : List Symbol) (miss : List Nat) (s : State) :
    (s.emit tap miss).cells = s.cells := rfl
@[simp] theorem State.emit_fill (tap : List Symbol) (miss : List Nat) (s : State) :
    (s.emit tap miss).fill = s.fill := rfl
@[simp] theorem State.emit_phase (tap : List Symbol) (miss : List Nat) (s : State) :
    (s.emit tap miss).phase = s.phase := rfl
@[simp] theorem State.emit_inbox (tap : List Symbol) (miss : List Nat) (s : State) :
    (s.emit tap miss).inbox = s.inbox := rfl
@[simp] theorem State.emit_outbox (tap : List Symbol) (miss : List Nat) (s : State) :
    (s.emit tap miss).outbox = s.outbox := rfl
@[simp] theorem State.emit_diag (tap : List Symbol) (miss : List Nat) (s : State) :
    (s.emit tap miss).diag = s.diag := rfl
@[simp] theorem State.emit_qd (tap : List Symbol) (miss : List Nat) (s : State) :
    (s.emit tap miss).qd = s.qd ++ (emission s.cfg tap miss).od := rfl
@[simp] theorem State.emit_qe (tap : List Symbol) (miss : List Nat) (s : State) :
    (s.emit tap miss).qe = s.qe ++ (emission s.cfg tap miss).oe := rfl
@[simp] theorem State.emit_cnt (tap : List Symbol) (miss : List Nat) (s : State) :
    (s.emit tap miss).cnt = s.cnt.bump s.cfg.cmax (emission s.cfg tap miss).outcome := rfl
@[simp] theorem State.emit_cell (tap : List Symbol) (miss : List Nat) (s : State) (i j : Nat) :
    (s.emit tap miss).cell i j = s.cell i j := rfl
@[simp] theorem State.emit_ftap (tap : List Symbol) (miss : List Nat) (s : State) (F u : Nat) :
    (s.emit tap miss).ftap F u = s.ftap F u := rfl

/-- Emitting one codeword uses up `n` elements of room in each FIFO (R162, R181). -/
theorem State.emit_room {s : State} {tap : List Symbol} (miss : List Nat) (x : Nat)
    (h : tap.length = s.cfg.nSym) : (s.emit tap miss).room x = s.room (s.cfg.nSym + x) := by
  have hod := emission_od_length (cfg := s.cfg) miss h
  have hoe := (emission_oe_length s.cfg tap miss).trans h
  unfold State.emit
  dsimp only
  rw [State.count_room, State.room_enqueue (hod.trans hoe.symm), hod]

/-! ### The loop of `FLUSH` -/

/-- The emission of flush codeword `u` of `F`, from the bank as it stands when the flush begins. -/
def State.flushEmission (s : State) (F u : Nat) : Emission :=
  emission s.cfg (s.ftap F u) (ftapMiss s.cfg F u)

/-- The whole effect of the loop over a list of indices: bytes, flags and counts are those of the
codewords in order, and nothing else is written (R185). -/
theorem State.flushLoop_eq (s : State) (F : Nat) (us : List Nat) :
    us.foldl (State.flushOne F) s =
      { s with
        qd := s.qd ++ us.flatMap fun u => (s.flushEmission F u).od
        qe := s.qe ++ us.flatMap fun u => (s.flushEmission F u).oe
        cnt := us.foldl (fun c u => c.bump s.cfg.cmax (s.flushEmission F u).outcome) s.cnt } := by
  induction us generalizing s with
  | nil => simp
  | cons u us ih =>
    rw [List.foldl_cons, ih]
    simp [State.flushOne, State.flushEmission, State.emit, State.enqueue, State.count,
      State.ftap, State.cell, State.line]

theorem State.flushAll_eq (s : State) (F : Nat) :
    s.flushAll F =
      { s with
        qd := s.qd ++ (List.range F).flatMap fun u => (s.flushEmission F u).od
        qe := s.qe ++ (List.range F).flatMap fun u => (s.flushEmission F u).oe
        cnt := (List.range F).foldl
          (fun c u => c.bump s.cfg.cmax (s.flushEmission F u).outcome) s.cnt } :=
  s.flushLoop_eq F (List.range F)

end Sys2Proof.Machine
end

