-- ==== Sys2Proof/Laws/Exec.lean ====
section
/-! SUPPORT. Everything `exec` can do, said once: an accepted command has its effect and answers
OK, a refused one only answers its status.  Later proofs cite `exec_accepted` and `exec_refused`
and never unfold a meaning. -/

namespace Sys2Proof.Machine

/-- The effect of an accepted command on the state, its response left out. -/
def performed (i : Instr) (s : State) : State :=
  match i with
  | .pushC1 data flags =>
    (if s.primed then s.emit (s.tap (symbols data flags)) [] else s).shift (symbols data flags)
  | .pullData => s.emptyQd
  | .pullErr => s.emptyQe
  | .flush => ((s.flushAll s.fill).clearBank).setPhase .flushed
  | .resetStats => s.clearCounters
  | .getStats => s
  | .reportStatus => s.logDiag
  | .reset => ((s.clearBank.setPhase .run).clearCounters).emptyQd.emptyQe

@[simp] theorem performed_cfg (i : Instr) (s : State) : (performed i s).cfg = s.cfg := by
  cases i <;> simp [performed, State.flushAll_eq]
  split <;> simp

@[simp] theorem performed_inbox (i : Instr) (s : State) : (performed i s).inbox = s.inbox := by
  cases i <;> simp [performed, State.flushAll_eq]
  split <;> simp

@[simp] theorem performed_outbox (i : Instr) (s : State) :
    (performed i s).outbox = s.outbox := by
  cases i <;> simp [performed, State.flushAll_eq]
  split <;> simp

/-- The payload of an accepted command's response (R67). -/
def answer (i : Instr) (s : State) : Payload :=
  match i with
  | .pushC1 _ _ => .none
  | .pullData => .data s.qd
  | .pullErr => .flags s.qe
  | .flush => .none
  | .resetStats => .none
  | .getStats => .counters s.cnt
  | .reportStatus => .none
  | .reset => .none

/-- The status of a command that is not accepted, by the priority of R207. -/
def refusal (i : Instr) (s : State) : Status :=
  match i with
  | .pushC1 _ _ =>
    if i.wellSized s.cfg.nSym = false then .errLength
    else if s.phase = .flushed then .errState
    else .errFull
  | _ => .errFull

theorem refusal_ne_ok (i : Instr) (s : State) : refusal i s ≠ .ok := by
  unfold refusal
  split
  · split
    · simp
    · split <;> simp
  · simp

theorem exec_accepted {i : Instr} {s : State} (h : accepts i s = true) :
    exec i s = .next ((performed i s).reply ⟨.ok, answer i s⟩) := by
  cases i with
  | pushC1 data flags =>
    simp only [accepts, Bool.and_eq_true, beq_iff_eq, Bool.or_eq_true, Bool.not_eq_true'] at h
    obtain ⟨⟨hw, hp⟩, hr⟩ := h
    have hfull : (s.primed && !s.room s.cfg.nSym) = false := by
      rcases hr with hr | hr <;> simp [hr]
    simp [exec, execPushC1, performed, answer, hw, hp, hfull]
  | flush =>
    have hr : s.room (s.fill * s.cfg.nSym) = true := h
    simp [exec, execFlush, performed, answer, hr]
  | pullData => rfl
  | pullErr => rfl
  | resetStats => rfl
  | getStats => rfl
  | reportStatus => rfl
  | reset => rfl

theorem exec_refused {i : Instr} {s : State} (h : accepts i s = false) :
    exec i s = .next (s.reply ⟨refusal i s, .none⟩) := by
  cases i with
  | pushC1 data flags =>
    unfold exec execPushC1 refusal
    dsimp only
    split
    · rfl
    · rename_i hw
      split
      · rfl
      · rename_i hp
        have hrun : s.phase = .run := by
          cases hph : s.phase with
          | run => rfl
          | flushed => exact absurd hph hp
        have hfull : (s.primed && !s.room s.cfg.nSym) = true := by
          simp only [accepts, Bool.not_eq_false] at h hw
          rw [hw, hrun] at h
          cases hP : s.primed <;> cases hR : s.room s.cfg.nSym <;> simp_all
        simp [hfull]
  | flush =>
    have hr : s.room (s.fill * s.cfg.nSym) = false := h
    simp [exec, execFlush, refusal, hr]
  | pullData => simp [accepts] at h
  | pullErr => simp [accepts] at h
  | resetStats => simp [accepts] at h
  | getStats => simp [accepts] at h
  | reportStatus => simp [accepts] at h
  | reset => simp [accepts] at h

/-- Inversion: a next state of `exec` is that of an accepted command or of a refusal. -/
theorem exec_cases {i : Instr} {s t : State} (h : exec i s = .next t) :
    (accepts i s = true ∧ t = (performed i s).reply ⟨.ok, answer i s⟩) ∨
      (accepts i s = false ∧ t = s.reply ⟨refusal i s, .none⟩) := by
  cases ha : accepts i s with
  | true =>
    rw [exec_accepted ha] at h
    injection h with h
    exact .inl ⟨rfl, h.symm⟩
  | false =>
    rw [exec_refused ha] at h
    injection h with h
    exact .inr ⟨rfl, h.symm⟩

/-- `exec` answers a next state for every command in every state (R208, R241). -/
theorem exec_next (i : Instr) (s : State) :
    ∃ t, exec i s = .next t := by
  cases ha : accepts i s with
  | true => exact ⟨_, exec_accepted ha⟩
  | false => exact ⟨_, exec_refused ha⟩

/-! ### One frame, one step -/

theorem command_of_ok {F : Frame} {i : Instr} (s : State) (h : decode F = .ok i) :
    command F s = exec i s := by simp [command, h]

theorem command_of_error {F : Frame} {st : Status} (s : State) (h : decode F = .error st) :
    command F s = .next (s.reply ⟨st, .none⟩) := by simp [command, h]

/-- Every frame is performed to the end. -/
theorem command_next (F : Frame) (s : State) : ∃ t, command F s = .next t := by
  cases hd : decode F with
  | ok i => rw [command_of_ok s hd]; exact exec_next i s
  | error st => exact ⟨_, command_of_error s hd⟩

/-- Inversion for one frame: it decodes to a command that is accepted, or it is refused and only
the response stream grows. -/
theorem command_cases {F : Frame} {s t : State} (h : command F s = .next t) :
    (∃ i, decode F = .ok i ∧ accepts i s = true ∧
        t = (performed i s).reply ⟨.ok, answer i s⟩) ∨
      (∃ st, st ≠ .ok ∧ t = s.reply ⟨st, .none⟩) := by
  cases hd : decode F with
  | ok i =>
    rw [command_of_ok s hd] at h
    rcases exec_cases h with h | h
    · exact .inl ⟨i, rfl, h⟩
    · exact .inr ⟨_, refusal_ne_ok i s, h.2⟩
  | error st =>
    rw [command_of_error s hd] at h
    injection h with h
    exact .inr ⟨st, decode_error_ne_ok hd, h.symm⟩

theorem step_nil {s : State} (h : s.inbox = []) : step s = .next s := by
  simp [step, serveFrame, State.takeFrame_nil h]

theorem step_cons {s : State} {F : Frame} {rest : List Frame} (h : s.inbox = F :: rest) :
    step s = command F { s with inbox := rest } := by
  simp [step, serveFrame, State.takeFrame_cons h]

/-- Every step completes: the block has no fatal path (R208, R241). -/
theorem step_next (s : State) : ∃ t, step s = .next t := by
  cases h : s.inbox with
  | nil => exact ⟨s, step_nil h⟩
  | cons F rest => rw [step_cons h]; exact command_next F _

theorem step_withFetchWord (s : State) (nbits w : Nat) :
    step (s.withFetchWord nbits w) = command (tableFrame nbits w) s := by
  simp [step, serveFrame, State.withFetchWord]

end Sys2Proof.Machine
end

