-- ==== Sys2Proof/Laws/Gf.lean ====
section
/-! SUPPORT. The algebra of `gfMul` and of the powers of `alpha`, for every field polynomial
(spec/40_gf_arithmetic.md R91 to R100).  Multiplication by `b` is the polynomial `b` applied to the
linear operator `xtime P`; all laws of `*` follow from that. -/

namespace Sys2Proof.Machine

/-- `x` if the bit `c` is set, else `0x00`. -/
def sel (c : Bool) (x : Byte) : Byte := if c then x else 0#8

@[simp] theorem sel_zero (c : Bool) : sel c 0#8 = 0#8 := by cases c <;> rfl
@[simp] theorem sel_false (x : Byte) : sel false x = 0#8 := rfl
@[simp] theorem sel_true (x : Byte) : sel true x = x := rfl

theorem sel_xor_right (c : Bool) (x y : Byte) : sel c (x ^^^ y) = sel c x ^^^ sel c y := by
  cases c <;> simp

theorem sel_xor_left (c d : Bool) (x : Byte) : sel (c ^^ d) x = sel c x ^^^ sel d x := by
  cases c <;> cases d <;> simp

/-! ### Addition -/

@[simp] theorem gfAdd_eq_xor (a b : Byte) : gfAdd a b = a ^^^ b := rfl

/-! ### The doubling operator -/

theorem xtime_eq (P : Poly9) (t : Byte) :
    xtime P t = (t <<< 1) ^^^ sel (t.getLsbD 7) (P.setWidth 8) := by
  have hb : ((t.setWidth 9 : BitVec 9) <<< 1).getLsbD 8 = t.getLsbD 7 := by
    simp
  have hw : ((t.setWidth 9 : BitVec 9) <<< 1).setWidth 8 = t <<< 1 := by
    ext i hi
    simp
  unfold xtime
  simp only [hb]
  cases t.getLsbD 7 <;> simp [BitVec.setWidth_xor, hw]

theorem xtime_xor (P : Poly9) (a b : Byte) : xtime P (a ^^^ b) = xtime P a ^^^ xtime P b := by
  have h : (a ^^^ b) <<< 1 = (a <<< 1) ^^^ (b <<< 1) := BitVec.shiftLeft_xor_distrib a b 1
  simp only [xtime_eq, h, BitVec.getLsbD_xor, sel_xor_left]
  ac_rfl

@[simp] theorem xtime_zero (P : Poly9) : xtime P 0#8 = 0#8 := by simp [xtime_eq]

/-- `x^k` times a byte: `k` doublings. -/
def xpow (P : Poly9) : Nat → Byte → Byte
  | 0, a => a
  | k + 1, a => xtime P (xpow P k a)

theorem xpow_xor (P : Poly9) (k : Nat) (a b : Byte) :
    xpow P k (a ^^^ b) = xpow P k a ^^^ xpow P k b := by
  induction k with
  | zero => rfl
  | succ k ih => simp [xpow, ih, xtime_xor]

@[simp] theorem xpow_zero_byte (P : Poly9) (k : Nat) : xpow P k 0#8 = 0#8 := by
  induction k with
  | zero => rfl
  | succ k ih => simp [xpow, ih]

theorem xpow_sel (P : Poly9) (k : Nat) (c : Bool) (a : Byte) :
    xpow P k (sel c a) = sel c (xpow P k a) := by cases c <;> simp

theorem xpow_comm (P : Poly9) (k l : Nat) (a : Byte) :
    xpow P k (xpow P l a) = xpow P l (xpow P k a) := by
  have hx : ∀ (l : Nat) (a : Byte), xtime P (xpow P l a) = xpow P l (xtime P a) := by
    intro l
    induction l with
    | zero => intro a; rfl
    | succ l ih => intro a; simp only [xpow]; rw [ih]
  induction k with
  | zero => rfl
  | succ k ih => rw [xpow, ih, xpow, hx]

/-! ### Multiplication -/

/-- R92's loop in closed form: the sum of `x^k * a` over the set bits `k` of `b`. -/
theorem gfMul_eq (P : Poly9) (a b : Byte) :
    gfMul P a b =
      sel (b.getLsbD 0) (xpow P 0 a) ^^^ sel (b.getLsbD 1) (xpow P 1 a) ^^^
      sel (b.getLsbD 2) (xpow P 2 a) ^^^ sel (b.getLsbD 3) (xpow P 3 a) ^^^
      sel (b.getLsbD 4) (xpow P 4 a) ^^^ sel (b.getLsbD 5) (xpow P 5 a) ^^^
      sel (b.getLsbD 6) (xpow P 6 a) ^^^ sel (b.getLsbD 7) (xpow P 7 a) := by
  have hstep : ∀ (c : Bool) (acc t : Byte), (if c then gfAdd acc t else acc) = acc ^^^ sel c t := by
    intro c acc t; cases c <;> simp
  simp only [gfMul, List.range, List.range.loop, List.foldl_cons, List.foldl_nil, hstep, xpow]
  simp

theorem gfMul_xor_left (P : Poly9) (a b c : Byte) :
    gfMul P (a ^^^ b) c = gfMul P a c ^^^ gfMul P b c := by
  simp only [gfMul_eq, xpow_xor, sel_xor_right]
  ac_rfl

theorem gfMul_xor_right (P : Poly9) (a b c : Byte) :
    gfMul P a (b ^^^ c) = gfMul P a b ^^^ gfMul P a c := by
  simp only [gfMul_eq, BitVec.getLsbD_xor, sel_xor_left]
  ac_rfl

@[simp] theorem gfMul_zero_left (P : Poly9) (b : Byte) : gfMul P 0#8 b = 0#8 := by
  simp [gfMul_eq]

@[simp] theorem gfMul_zero_right (P : Poly9) (a : Byte) : gfMul P a 0#8 = 0#8 := by
  simp [gfMul_eq]

@[simp] theorem gfMul_one_right (P : Poly9) (a : Byte) : gfMul P a 1#8 = a := by
  have h : ∀ k, 1 ≤ k → k < 8 → (1#8).getLsbD k = false := by decide
  rw [gfMul_eq, h 1 (by omega) (by omega), h 2 (by omega) (by omega), h 3 (by omega) (by omega),
    h 4 (by omega) (by omega), h 5 (by omega) (by omega), h 6 (by omega) (by omega),
    h 7 (by omega) (by omega)]
  simp [xpow]

theorem gfMul_sel_left (P : Poly9) (c : Bool) (a b : Byte) :
    gfMul P (sel c a) b = sel c (gfMul P a b) := by cases c <;> simp

theorem gfMul_xpow (P : Poly9) (k : Nat) (a b : Byte) :
    gfMul P (xpow P k a) b = xpow P k (gfMul P a b) := by
  simp only [gfMul_eq, xpow_xor, xpow_sel, xpow_comm P _ k]

theorem gfMul_right_comm (P : Poly9) (x a b : Byte) :
    gfMul P (gfMul P x a) b = gfMul P (gfMul P x b) a := by
  rw [gfMul_eq P x a, gfMul_eq P (gfMul P x b) a]
  simp only [gfMul_xor_left, gfMul_sel_left, gfMul_xpow]

/-- A byte is the sum of its bits' powers of `x` (R90). -/
theorem byte_eq_bits (b : Byte) :
    sel (b.getLsbD 0) 1#8 ^^^ sel (b.getLsbD 1) 2#8 ^^^ sel (b.getLsbD 2) 4#8 ^^^
      sel (b.getLsbD 3) 8#8 ^^^ sel (b.getLsbD 4) 16#8 ^^^ sel (b.getLsbD 5) 32#8 ^^^
      sel (b.getLsbD 6) 64#8 ^^^ sel (b.getLsbD 7) 128#8 = b := by
  revert b; decide +kernel

@[simp] theorem gfMul_one_left (P : Poly9) (b : Byte) : gfMul P 1#8 b = b := by
  have h1 : xpow P 1 1#8 = 2#8 := by simp [xpow, xtime_eq]
  have h2 : xpow P 2 1#8 = 4#8 := by rw [xpow, h1]; simp [xtime_eq]
  have h3 : xpow P 3 1#8 = 8#8 := by rw [xpow, h2]; simp [xtime_eq]
  have h4 : xpow P 4 1#8 = 16#8 := by rw [xpow, h3]; simp [xtime_eq]
  have h5 : xpow P 5 1#8 = 32#8 := by rw [xpow, h4]; simp [xtime_eq]
  have h6 : xpow P 6 1#8 = 64#8 := by rw [xpow, h5]; simp [xtime_eq]
  have h7 : xpow P 7 1#8 = 128#8 := by rw [xpow, h6]; simp [xtime_eq]
  rw [gfMul_eq, h1, h2, h3, h4, h5, h6, h7, xpow, byte_eq_bits]

/-- `*` is commutative (R100). -/
theorem gfMul_comm (P : Poly9) (a b : Byte) : gfMul P a b = gfMul P b a := by
  rw [← gfMul_one_left P a, gfMul_right_comm, gfMul_one_left, gfMul_one_left]

/-- `*` is associative (R100). -/
theorem gfMul_assoc (P : Poly9) (a b c : Byte) :
    gfMul P (gfMul P a b) c = gfMul P a (gfMul P b c) := by
  rw [gfMul_comm P a b, gfMul_right_comm, gfMul_comm]

theorem gfMul_left_comm (P : Poly9) (a b c : Byte) :
    gfMul P a (gfMul P b c) = gfMul P b (gfMul P a c) := by
  rw [← gfMul_assoc, gfMul_comm P a b, gfMul_assoc]

/-! ### Powers -/

@[simp] theorem gfPow_zero (P : Poly9) (a : Byte) : gfPow P a 0 = 1#8 := rfl
theorem gfPow_succ (P : Poly9) (a : Byte) (e : Nat) :
    gfPow P a (e + 1) = gfMul P (gfPow P a e) a := rfl

theorem gfPow_add (P : Poly9) (a : Byte) (e g : Nat) :
    gfPow P a (e + g) = gfMul P (gfPow P a e) (gfPow P a g) := by
  induction g with
  | zero => simp
  | succ g ih => rw [← Nat.add_assoc, gfPow_succ, ih, gfPow_succ, gfMul_assoc]

theorem gfPow_one_base (P : Poly9) (e : Nat) : gfPow P 1#8 e = 1#8 := by
  induction e with
  | zero => rfl
  | succ e ih => simp [gfPow_succ, ih]

theorem gfPow_mul (P : Poly9) (a : Byte) (e g : Nat) :
    gfPow P a (e * g) = gfPow P (gfPow P a e) g := by
  induction g with
  | zero => rfl
  | succ g ih => rw [Nat.mul_succ, gfPow_add, ih, gfPow_succ]

theorem primitive_pow_255 {P : Poly9} (h : primitive P = true) : gfPow P alpha 255 = 1#8 := by
  simp only [primitive, Bool.and_eq_true, beq_iff_eq] at h
  exact h.1

theorem primitive_pow_ne_one {P : Poly9} (h : primitive P = true) {e : Nat} (h0 : 0 < e)
    (h1 : e < 255) : gfPow P alpha e ≠ 1#8 := by
  simp only [primitive, Bool.and_eq_true, List.all_eq_true, List.mem_range, bne_iff_ne] at h
  obtain ⟨k, rfl⟩ : ∃ k, e = k + 1 := ⟨e - 1, by omega⟩
  exact h.2 k (by omega)

/-- Exponents of `alpha` count modulo 255 (R93). -/
theorem alphaPow_eq_gfPow {P : Poly9} (h : primitive P = true) (e : Nat) :
    alphaPow P e = gfPow P alpha e := by
  have he : e = 255 * (e / 255) + e % 255 := (Nat.div_add_mod e 255).symm
  conv_rhs => rw [he, gfPow_add, gfPow_mul, primitive_pow_255 h, gfPow_one_base, gfMul_one_left]
  rfl

@[simp] theorem alphaPow_zero (P : Poly9) : alphaPow P 0 = 1#8 := rfl

/-- `alpha^e * alpha^g = alpha^(e+g)` (R100). -/
theorem alphaPow_add {P : Poly9} (h : primitive P = true) (e g : Nat) :
    alphaPow P (e + g) = gfMul P (alphaPow P e) (alphaPow P g) := by
  simp only [alphaPow_eq_gfPow h, gfPow_add]

/-- Natural exponents agree with integer ones (R93). -/
theorem alphaPowInt_natCast (P : Poly9) (e : Nat) : alphaPowInt P (e : Int) = alphaPow P e := by
  unfold alphaPowInt alphaPow
  congr 1

/-! ### Sums -/

theorem gfSum_foldl (l : List Byte) (a : Byte) : l.foldl gfAdd a = a ^^^ gfSum l := by
  induction l generalizing a with
  | nil => simp [gfSum]
  | cons x l ih =>
    rw [gfSum, List.foldl_cons, List.foldl_cons, ih, ih (gfAdd 0#8 x)]
    simp [BitVec.xor_assoc]

@[simp] theorem gfSum_nil : gfSum [] = 0#8 := rfl

@[simp] theorem gfSum_cons (x : Byte) (l : List Byte) : gfSum (x :: l) = x ^^^ gfSum l := by
  rw [gfSum, List.foldl_cons, gfSum_foldl]; simp

theorem gfSum_append (l m : List Byte) : gfSum (l ++ m) = gfSum l ^^^ gfSum m := by
  induction l with
  | nil => simp
  | cons x l ih => simp [ih, BitVec.xor_assoc]

theorem gfMul_gfSum (P : Poly9) (z : Byte) (l : List Byte) :
    gfMul P (gfSum l) z = gfSum (l.map fun x => gfMul P x z) := by
  induction l with
  | nil => simp
  | cons x l ih => simp [gfMul_xor_left, ih]

end Sys2Proof.Machine
end

