-- ==== Sys2Proof/Laws/PerInstr.lean ====
section
/-! SUPPORT. Statements about every command as a term, one lemma per constructor. -/

namespace Sys2Proof.Laws.FrameShape

/-- The frame of a well-formed command begins with its opcode, which is a legal one, and has exactly
the length its own bytes require (R61, R65). -/
def Statement (i : Instr) : Prop :=
  i.wf = true →
    (encode i).head? = some i.opcode ∧ 1 ≤ i.opcode.toNat ∧ i.opcode.toNat ≤ 8 ∧
      (encode i).length = requiredLength (encode i)

theorem pushC1 (data : List Byte) (flags : List Bool) : Statement (.pushC1 data flags) := by
  intro h
  simp only [Instr.wf, Bool.and_eq_true, decide_eq_true_eq] at h
  have hd : data.length % 256 = data.length := Nat.mod_eq_of_lt (by omega)
  have hf : flags.length % 256 = flags.length := Nat.mod_eq_of_lt (by omega)
  simp [encode, Instr.opcode, requiredLength, hd, hf]
  omega

theorem pullData : Statement .pullData := by
  intro _; simp [encode, Instr.opcode, requiredLength]

theorem pullErr : Statement .pullErr := by
  intro _; simp [encode, Instr.opcode, requiredLength]

theorem flush : Statement .flush := by
  intro _; simp [encode, Instr.opcode, requiredLength]

theorem resetStats : Statement .resetStats := by
  intro _; simp [encode, Instr.opcode, requiredLength]

theorem getStats : Statement .getStats := by
  intro _; simp [encode, Instr.opcode, requiredLength]

theorem reportStatus : Statement .reportStatus := by
  intro _; simp [encode, Instr.opcode, requiredLength]

theorem reset : Statement .reset := by
  intro _; simp [encode, Instr.opcode, requiredLength]

end Sys2Proof.Laws.FrameShape
end

