-- ==== Sys2Proof/Tests/Slice0.lean ====
section
/-! SUPPORT. Tests, each with its expected result from spec/ (the vector or rule is named), and for
every obligation that has hypotheses a witness that meets them. -/

namespace Sys2Proof.Tests

open Sys2Proof.Machine

-- One theorem at a time: many kernel evaluations waiting for one another would each hold a thread.
set_option Elab.async false

/-! ### Helpers -/

theorem primitive_default : primitive 0x11D#9 = true := by
  have h := defaultConfig_wf
  simp only [Config.wf, Bool.and_eq_true] at h
  exact h.1.1.1.2.2

/-- Configuration `SMALL` of spec/95_test_vectors.md, with the open parameters and `CW` given. -/
def smallWith (policy : FailPolicy) (qcap : Option Nat) (cw : Nat) : Config where
  nSym := 4
  nPar := 2
  depth := [0, 1, 2, 3]
  gfPoly := 0x11D#9
  fcr := 0
  failPolicy := policy
  qcap := qcap
  cw := cw

theorem smallWith_wf {policy : FailPolicy} {qcap : Option Nat} {cw : Nat}
    (hq : ∀ q, qcap = some q → 4 ≤ q) (hw : 1 ≤ cw) : (smallWith policy qcap cw).wf = true := by
  have hqc : (smallWith policy qcap cw).qcapOk = true := by
    unfold Config.qcapOk smallWith
    cases qcap with
    | none => rfl
    | some q => exact decide_eq_true (hq q rfl)
  simp [Config.wf, hqc]
  simp [smallWith, primitive_default, hw]

/-- `SMALL` with `PassThrough` and `QCAP = INF`. -/
def small : Config := smallWith .passThrough none 32
theorem small_wf : small.wf = true := smallWith_wf (by simp) (by decide)

/-- `SMALL` with `QCAP = 4` (program P3). -/
def small4 : Config := smallWith .passThrough (some 4) 32
theorem small4_wf : small4.wf = true := smallWith_wf (by simp) (by decide)

/-- `SMALL` with `ZeroFill` (the variant of V42). -/
def smallZero : Config := smallWith .zeroFill none 32
theorem smallZero_wf : smallZero.wf = true := smallWith_wf (by simp) (by decide)

/-- `SMALL` with two-bit counters (V54). -/
def smallCw2 : Config := smallWith .passThrough none 2
theorem smallCw2_wf : smallCw2.wf = true := smallWith_wf (by simp) (by decide)

/-- Symbols with flag 0. -/
def clean (l : List Byte) : List Symbol := l.map fun d => ⟨d, false⟩

def noFlags : List Bool := [false, false, false, false]

def k0 : List Byte := [0x11#8, 0x22#8, 0x11#8, 0x22#8]
def k1 : List Byte := [0x33#8, 0x44#8, 0x55#8, 0x22#8]
def k2 : List Byte := [0x55#8, 0x66#8, 0x1C#8, 0x2F#8]

/-- `SMALL` after the first three pushes of program P1, for any of the configurations above. -/
def primedP1 (cfg : Config) (h : cfg.wf = true) : State :=
  { State.powerOn cfg h with
    cells := [clean [0x55#8, 0x33#8, 0x11#8], clean [0x44#8, 0x22#8], clean [0x11#8], []]
    fill := 3 }

/-- The three codewords pushed so far in program P1. -/
def pushesP1 : List (List Symbol) :=
  [clean [0x11#8, 0#8, 0#8, 0#8], clean [0x33#8, 0x22#8, 0#8, 0#8],
    clean [0x55#8, 0x44#8, 0x11#8, 0#8]]

/-- The fourth push of program P1. -/
def push4 : Instr := .pushC1 [0x00#8, 0x66#8, 0x55#8, 0x22#8] noFlags

/-- The state of vector V42 before its flush. -/
def beforeFlushV42 (cfg : Config) (h : cfg.wf = true) : State :=
  { State.powerOn cfg h with
    cells := [[⟨0xB0#8, false⟩, ⟨0xA0#8, false⟩, Symbol.vacant],
      [⟨0xB1#8, true⟩, ⟨0xA1#8, false⟩], [⟨0xB2#8, false⟩], []]
    fill := 2 }

def start : State := State.powerOn small small_wf
def start4 : State := State.powerOn small4 small4_wf
def primed : State := primedP1 small small_wf
def primed4 : State := primedP1 small4 small4_wf
def flushedState : State := { start with phase := .flushed }

/-- A next state that meets a test. -/
def ends (o : Host.Outcome State Fault Refusal) (p : State → Bool) : Bool :=
  match o with
  | .next t => p t
  | .fault _ => false
  | .refused _ => false

theorem ends_next {o : Host.Outcome State Fault Refusal} {p : State → Bool} (h : ends o p = true) :
    ∃ t, o = .next t ∧ p t = true := by
  unfold ends at h
  split at h
  · exact ⟨_, rfl, h⟩
  · simp at h
  · simp at h

/-- The bytes of the response a frame is answered with. -/
def answerTo (F : Frame) (s : State) : Option Frame :=
  match command F s with
  | .next t => (t.outbox.drop s.outbox.length).head?.bind (responseBytes s.cfg)
  | .fault _ => none
  | .refused _ => none

/-! ### Well-formedness -/

theorem test_wf_refuses_256_data_bytes :
    (Instr.pushC1 (List.replicate 256 0#8) []).wf = false := by decide +kernel

theorem test_wf_refuses_256_flags :
    (Instr.pushC1 [] (List.replicate 256 false)).wf = false := by decide +kernel

theorem test_wf_accepts_255 :
    (Instr.pushC1 (List.replicate 255 0#8) (List.replicate 255 true)).wf = true := by
  decide +kernel

theorem test_wellSized_refuses_other_lengths :
    (Instr.pushC1 [1#8, 2#8, 3#8] noFlags).wellSized 4 = false ∧
      (Instr.pushC1 [1#8, 2#8, 3#8, 4#8] [false]).wellSized 4 = false := by decide

/-! ### Decoding: frames from R61 to R64, V42, V50 -/

theorem test_decode_push :
    decode [0x01#8, 0x04#8, 0x04#8, 0xB0#8, 0xB1#8, 0xB2#8, 0xB3#8, 0x00#8, 0x01#8, 0x00#8, 0x00#8]
      = .ok (.pushC1 [0xB0#8, 0xB1#8, 0xB2#8, 0xB3#8] [false, true, false, false]) := by decide

theorem test_decode_push_unequal_lengths :
    decode [0x01#8, 0x02#8, 0x01#8, 0xAA#8, 0xBB#8, 0x01#8]
      = .ok (.pushC1 [0xAA#8, 0xBB#8] [true]) := by decide

theorem test_decode_pull_data : decode [0x02#8] = .ok .pullData := by decide
theorem test_decode_pull_err : decode [0x03#8] = .ok .pullErr := by decide
theorem test_decode_flush : decode [0x04#8] = .ok .flush := by decide
theorem test_decode_reset_stats : decode [0x05#8] = .ok .resetStats := by decide
theorem test_decode_get_stats : decode [0x06#8] = .ok .getStats := by decide
theorem test_decode_report_status : decode [0x07#8] = .ok .reportStatus := by decide
theorem test_decode_reset : decode [0x08#8] = .ok .reset := by decide

/-- V50, the frames refused for their opcode. -/
theorem test_decode_illegal_opcodes :
    decode [0x00#8] = .error .errOpcode ∧ decode [0x09#8] = .error .errOpcode ∧
      decode [0xFF#8] = .error .errOpcode ∧
      decode [0xFF#8, 0x00#8, 0x00#8] = .error .errOpcode := by decide

/-- V50, the frames refused for their format. -/
theorem test_decode_malformed :
    ∀ F ∈ [[], [0x02#8, 0x00#8], [0x06#8, 0x06#8], [0x01#8], [0x01#8, 0x04#8],
        [0x01#8, 4#8, 4#8, 1#8, 2#8, 3#8, 4#8, 0#8, 0#8, 0#8],
        [0x01#8, 4#8, 4#8, 1#8, 2#8, 3#8, 4#8, 0#8, 0#8, 0#8, 0#8, 0#8],
        [0x01#8, 4#8, 4#8, 1#8, 2#8, 3#8, 4#8, 0#8, 0#8, 0#8, 2#8],
        [0x01#8, 4#8, 4#8, 1#8, 2#8, 3#8, 4#8, 0xFF#8, 0#8, 0#8, 0#8]],
      decode F = .error .errFormat := by decide

/-- V51, the length refusals. -/
theorem test_decodeFor_length :
    ∀ F ∈ [[0x01#8, 3#8, 3#8, 1#8, 2#8, 3#8, 0#8, 0#8, 0#8],
        [0x01#8, 4#8, 3#8, 1#8, 2#8, 3#8, 4#8, 0#8, 0#8, 0#8],
        [0x01#8, 3#8, 4#8, 1#8, 2#8, 3#8, 0#8, 0#8, 0#8, 0#8],
        [0x01#8, 5#8, 5#8, 1#8, 2#8, 3#8, 4#8, 5#8, 0#8, 0#8, 0#8, 0#8, 0#8],
        [0x01#8, 0#8, 0#8]],
      decodeFor 4 F = .error .errLength := by decide

/-- The words of the opcode table, one byte each; `PUSH_C1` is followed by zero lengths. -/
theorem test_table_words :
    decodeTableWord 8 0x01 = some (.pushC1 [] []) ∧ decodeTableWord 8 0x02 = some .pullData ∧
      decodeTableWord 8 0x03 = some .pullErr ∧ decodeTableWord 8 0x04 = some .flush ∧
      decodeTableWord 8 0x05 = some .resetStats ∧ decodeTableWord 8 0x06 = some .getStats ∧
      decodeTableWord 8 0x07 = some .reportStatus ∧ decodeTableWord 8 0x08 = some .reset ∧
      decodeTableWord 8 0x00 = none ∧ decodeTableWord 8 0x09 = none := by decide

/-- A table word placed with `withFetchWord` is what the next step performs: V51 and V53. -/
theorem test_fetch_word_runs :
    ends (step (State.reset.withFetchWord 8 0x01)) (fun t => t.outbox == [⟨.errLength, .none⟩]) ∧
      ends (step (State.reset.withFetchWord 8 0x02)) (fun t => t.outbox == [⟨.ok, .data []⟩]) ∧
      ends (step (State.reset.withFetchWord 8 0x04)) (fun t => t.phase == .flushed) := by
  decide +kernel

/-! ### Refusals: V52, P3 -/

theorem test_length_before_state :
    answerTo [0x01#8, 3#8, 3#8, 1#8, 2#8, 3#8, 0#8, 0#8, 0#8] flushedState = some [0x03#8] := by
  decide +kernel

theorem test_push_after_flush :
    answerTo [0x01#8, 4#8, 4#8, 0#8, 0#8, 0#8, 0#8, 0#8, 0#8, 0#8, 0#8] flushedState
      = some [0x04#8] := by decide +kernel

/-- P3, steps 12 and 16: with `QCAP = 4` a full bank can never be flushed. -/
theorem test_flush_without_room :
    ends (command [0x04#8] primed4)
      (fun t => t = primed4.reply ⟨.errFull, .none⟩) = true := by decide +kernel

/-- P3, step 11. -/
theorem test_push_without_room :
    ends (exec push4 { primed4 with qd := [0#8, 0#8, 0#8, 0#8], qe := noFlags })
      (fun t => t.outbox == [⟨.errFull, .none⟩] && t.fill == 3 && t.qd.length == 4) = true := by
  decide +kernel

/-- The status bytes that V50 and P3 (steps 11, 12) show beside those above. -/
theorem test_status_bytes :
    answerTo [0xFF#8] start = some [0x01#8] ∧ answerTo [] start = some [0x02#8] ∧
      answerTo [0x04#8] primed4 = some [0x05#8] ∧ answerTo [0x05#8] start = some [0x00#8] := by
  decide +kernel

/-! ### PUSH_C1: the example of R161, P1 step 4, P2 step 4 -/

theorem test_push_priming :
    ends (command [0x01#8, 4#8, 4#8, 0x11#8, 0#8, 0#8, 0#8, 0#8, 0#8, 0#8, 0#8] start)
      (fun t => t.fill == 1 && t.cell 0 0 == ⟨0x11#8, false⟩ && t.qd == []) = true := by
  decide +kernel

theorem test_push_primed_passed :
    ends (exec push4 primed) (fun t => t.qd == k0 && t.qe == noFlags && t.cnt == ⟨1, 0, 0, 0⟩ &&
      t.line 0 == clean [0x00#8, 0x55#8, 0x33#8] && t.line 1 == clean [0x66#8, 0x44#8]) = true := by
  decide +kernel

theorem test_push_primed_corrected :
    ends (exec (.pushC1 [0xDE#8, 0xAD#8, 0xBE#8, 0xEF#8] [true, true, true, true]) primed)
      (fun t => t.qd == k0 && t.qe == noFlags && t.cnt == ⟨0, 1, 0, 0⟩ &&
        t.cell 0 0 == ⟨0xDE#8, true⟩) = true := by decide +kernel

/-! ### PULL_DATA, PULL_ERR: the examples of R182, R183 -/

theorem test_pull_data :
    answerTo [0x02#8] { start with qd := k0, qe := noFlags }
      = some [0x00#8, 0x04#8, 0x00#8, 0x00#8, 0x00#8, 0x11#8, 0x22#8, 0x11#8, 0x22#8] := by
  decide +kernel

theorem test_pull_err :
    answerTo [0x03#8] { start with qd := k0, qe := [false, true, true, false] }
      = some [0x00#8, 0x04#8, 0x00#8, 0x00#8, 0x00#8, 0x00#8, 0x01#8, 0x01#8, 0x00#8] := by
  decide +kernel

/-! ### FLUSH: V42 -/

theorem test_flush :
    ends (exec .flush (beforeFlushV42 small small_wf)) (fun t =>
      t.qd == [0xA0#8, 0xB1#8, 0#8, 0#8, 0xB0#8, 0#8, 0#8, 0#8] &&
        t.qe == List.replicate 8 true && t.cnt == ⟨0, 0, 0, 2⟩ && t.fill == 0 &&
        t.phase == .flushed && t.cell 1 0 == Symbol.vacant) = true := by decide +kernel

theorem test_flush_zero_fill :
    ends (exec .flush (beforeFlushV42 smallZero smallZero_wf)) (fun t =>
      t.qd == List.replicate 8 0#8 && t.qe == List.replicate 8 true) = true := by decide +kernel

/-! ### Statistics and RESET: R165, R166, P2 step 10, R188 -/

theorem test_reset_stats :
    ends (exec .resetStats { primed with cnt := ⟨3, 2, 1, 0⟩ }) (fun t =>
      t.cnt == ⟨0, 0, 0, 0⟩ && t.fill == 3 && t.cell 0 2 == ⟨0x11#8, false⟩) = true := by
  decide +kernel

theorem test_get_stats :
    answerTo [0x06#8] { start with cnt := ⟨0, 2, 1, 0⟩ }
      = some [0x00#8, 0#8, 0#8, 0#8, 0#8, 0x02#8, 0#8, 0#8, 0#8, 0x01#8, 0#8, 0#8, 0#8,
          0#8, 0#8, 0#8, 0#8] := by decide +kernel

theorem test_report_status :
    ends (exec .reportStatus { start with cnt := ⟨0, 2, 1, 0⟩ }) (fun t =>
      t.diag == [⟨0, 2, 1, 0⟩] && t.cnt == ⟨0, 2, 1, 0⟩ && t.outbox == [⟨.ok, .none⟩]) = true := by
  decide +kernel

theorem test_reset :
    ends (exec .reset { primed with phase := .flushed, cnt := ⟨1, 2, 3, 4⟩, qd := k0, qe := noFlags })
      (fun t => t = start.reply ⟨.ok, .none⟩) = true := by decide +kernel

/-- V54: a two-bit counter stays at 3, and its field is one byte. -/
theorem test_counter_saturates :
    ends (exec push4 { primedP1 smallCw2 smallCw2_wf with cnt := ⟨3, 0, 0, 0⟩ })
        (fun t => t.cnt == ⟨3, 0, 0, 0⟩) = true ∧
      answerTo [0x06#8] { primedP1 smallCw2 smallCw2_wf with cnt := ⟨3, 0, 0, 0⟩ }
        = some [0x00#8, 3#8, 0#8, 0#8, 0#8] := by decide +kernel

/-! ### Arithmetic: V1, V4, V5, V6, V7 -/

theorem test_gfMul :
    gfMul 0x11D#9 0x53#8 0xCA#8 = 0x8F#8 ∧ gfMul 0x11D#9 0x02#8 0x80#8 = 0x1D#8 ∧
      gfMul 0x11D#9 0xFF#8 0xFF#8 = 0xE2#8 ∧ gfMul 0x11B#9 0x53#8 0xCA#8 = 0x01#8 := by decide +kernel

theorem test_powers :
    alphaPow 0x11D#9 25 = 0x03#8 ∧ alphaPow 0x11D#9 254 = 0x8E#8 ∧ alphaPow 0x11D#9 256 = 0x02#8 ∧
      alphaPowInt 0x11D#9 (-1) = 0x8E#8 ∧ gfLog 0x11D#9 0x53#8 = some 206 := by decide +kernel

theorem test_gfInv :
    gfInv 0x11D#9 0x53#8 (by decide) = 0x8C#8 ∧ gfInv 0x11D#9 0x03#8 (by decide) = 0xF4#8 ∧
      gfDiv 0x11D#9 0x53#8 0xCA#8 (by decide) = 0x6D#8 := by decide +kernel

theorem test_polynomials :
    polyEval 0x11D#9 [0x01#8, 0xEA#8] (alphaPowInt 0x11D#9 (-22)) = 0x00#8 ∧
      polyMul 0x11D#9 [0x01#8, 0x26#8] [0x01#8, 0x83#8, 0x9D#8] = [0x01#8, 0xA5#8, 0x1D#8, 0x23#8] ∧
      polyDeriv [0x01#8, 0x61#8, 0x50#8, 0x3B#8, 0x14#8] = [0x61#8, 0x00#8, 0x3B#8, 0x00#8] := by
  decide +kernel

/-! ### The decoder: R130, V25, V31, V35 -/

/-- The codeword `c0` of `DEF`. -/
def c0 : List Byte :=
  [0x01#8, 0x02#8, 0x03#8, 0x04#8, 0x05#8, 0x06#8, 0x07#8, 0x08#8, 0x09#8, 0x0A#8] ++
    [0x0B#8, 0x0C#8, 0x0D#8, 0x0E#8, 0x0F#8, 0x10#8, 0x11#8, 0x12#8, 0x13#8, 0x14#8] ++
    [0x15#8, 0x16#8, 0x17#8, 0x18#8, 0xE0#8, 0x05#8, 0xEC#8, 0x11#8]

/-- The received word of R130. -/
def w130 : List Byte := ((c0.set 2 0x00#8).set 20 0x77#8).set 12 0x31#8

theorem test_r130_intermediates :
    syndromes Config.default w130 = [0x5D#8, 0x09#8, 0xAF#8, 0x1D#8] ∧
      erasureLocator Config.default [2, 20] = [0x01#8, 0x83#8, 0x9D#8] ∧
      errorLocator Config.default [0xBE#8, 0xFD#8] = some [0x01#8, 0x26#8] ∧
      chien Config.default [0x01#8, 0x26#8] [2, 20] = [12] := by decide +kernel

theorem test_r130 : rsDecode Config.default w130 [2, 20] = .corrected c0 := by decide +kernel

theorem test_v25_three_errors_fail :
    rsDecode Config.default (((c0.set 1 0x03#8).set 2 0x01#8).set 3 0x07#8) [] = .failed := by
  decide +kernel

theorem test_v31_miscorrection :
    rsDecode Config.default (c0.set 4 0x14#8) [7, 8, 9, 10]
      = .corrected ((((((c0.set 4 0x14#8).set 7 0xFD#8).set 8 0x7E#8).set 9 0x8A#8).set 10 0x18#8)) := by
  decide +kernel

theorem test_v35 :
    rsDecode small [0xD5#8, 0x66#8, 0x1C#8, 0x2F#8] [] = .corrected k2 ∧
      rsDecode small [0x33#8, 0x00#8, 0x00#8, 0x22#8] [1, 2] = .corrected k1 ∧
      rsDecode small [0xD5#8, 0xAD#8, 0x1C#8, 0x2F#8] [1] = .failed := by decide +kernel

/-- V30's outcome (log entry 13 is about its listed intermediate values). -/
theorem test_v30 :
    rsDecode Config.default ((((c0.set 0 0#8).set 1 0#8).set 2 0#8).set 9 0x1A#8) [0, 1, 2]
      = .failed := by decide +kernel

/-! ### Assembler: R70 -/

theorem test_push_frame :
    (AsmLine.pushErased [0xDE#8, 0xAD#8]).frames
      = [[0x01#8, 2#8, 2#8, 0xDE#8, 0xAD#8, 1#8, 1#8]] := by decide

/-! ### Witnesses -/

theorem witness_DecodeOfEncodedCommand :
    (Instr.pushC1 [] (List.replicate 255 true)).wf = true := by decide +kernel

theorem witness_EncodeOfDecodedFrame :
    decode [0x01#8, 1#8, 1#8, 0xFF#8, 1#8] = .ok (.pushC1 [0xFF#8] [true]) := by decide

theorem witness_CommandFollowsDecodeFunction :
    decodeFor start.cfg.nSym [0x01#8, 4#8, 4#8, 1#8, 2#8, 3#8, 4#8, 0#8, 0#8, 0#8, 1#8]
        = .ok (.pushC1 [1#8, 2#8, 3#8, 4#8] [false, false, false, true]) ∧
      decodeFor start.cfg.nSym [0x01#8, 0#8, 0#8] = .error .errLength := by decide

/-- Both clauses: a frame that decodes and one that does not (also for `EachFrameAnsweredOnce`). -/
theorem witness_StepRunsDecodedCommand :
    ({ start with inbox := [[0x06#8], [0x02#8]] } : State).inbox = [0x06#8] :: [[0x02#8]] ∧
      decode [0x06#8] = .ok .getStats ∧
      ({ start with inbox := [[0x06#8, 0x06#8]] } : State).inbox = [0x06#8, 0x06#8] :: [] ∧
      decode [0x06#8, 0x06#8] = .error .errFormat := by decide

theorem witness_IdleBlockDoesNothing : start.inbox = [] := rfl

theorem witness_RunIsOneStepPerFrame : primed.inbox = [] := rfl

theorem witness_IllegalOpcodeRefused :
    ∀ op ∈ [0x00#8, 0x09#8, 0xFF#8], op = 0x00#8 ∨ 0x09 ≤ op.toNat := by decide

/-- The clauses (b) at both ends, (c), (d) and (e). -/
theorem witness_MalformedFrameRefused :
    (2 ≤ (0x02#8).toNat ∧ (0x08#8).toNat ≤ 8 ∧ [0x00#8] ≠ ([] : Frame)) ∧
      ([0x04#8] : Frame).length < 2 ∧
      ([1#8, 2#8, 3#8] : Frame).length ≠ (2#8).toNat + (2#8).toNat ∧
      ([1#8, 2#8] : Frame).length = (1#8).toNat + (1#8).toNat ∧
      (∃ b ∈ ([1#8, 2#8] : Frame).drop (1#8).toNat, 0x01 < b.toNat) := by decide

/-- Each length wrong alone, at the value next to `n = 4`. -/
theorem witness_WrongLengthRefused :
    (([1#8, 2#8, 3#8, 0#8, 0#8, 0#8, 1#8] : Frame).length = (3#8).toNat + (4#8).toNat ∧
      (∀ b ∈ ([1#8, 2#8, 3#8, 0#8, 0#8, 0#8, 1#8] : Frame).drop (3#8).toNat, b.toNat ≤ 0x01) ∧
      (3#8).toNat ≠ start.cfg.nSym) ∧
    (([1#8, 2#8, 3#8, 4#8, 0#8, 0#8, 0#8, 0#8, 1#8] : Frame).length = (4#8).toNat + (5#8).toNat ∧
      (∀ b ∈ ([1#8, 2#8, 3#8, 4#8, 0#8, 0#8, 0#8, 0#8, 1#8] : Frame).drop (4#8).toNat,
        b.toNat ≤ 0x01) ∧ (5#8).toNat ≠ start.cfg.nSym) := by decide

theorem witness_PushAfterFlushRefused :
    k0.length = flushedState.cfg.nSym ∧ noFlags.length = flushedState.cfg.nSym ∧
      flushedState.phase = .flushed := by decide

/-- A push with one flag too many queued, and a flush of a full bank with empty FIFOs. -/
theorem witness_LackOfRoomRefused :
    let s : State := { primed4 with qe := [true] }
    s.cfg.qcap = some 4 ∧ k0.length = s.cfg.nSym ∧ noFlags.length = s.cfg.nSym ∧ s.phase = .run ∧
      s.fill = s.cfg.dmax ∧ 4 < s.qe.length + s.cfg.nSym ∧
      primed4.cfg.qcap = some 4 ∧ 4 < primed4.qd.length + primed4.fill * primed4.cfg.nSym := by
  decide

theorem witness_PushSucceedsOnceDrained :
    k0.length = primed4.cfg.nSym ∧ noFlags.length = primed4.cfg.nSym ∧ primed4.phase = .run ∧
      primed4.qd = [] ∧ primed4.qe = [] := by decide

theorem witness_RefusedCommandChangesNothing :
    (∃ t, command [0x09#8] start = .next t ∧ t.outbox = start.outbox ++ [⟨.errOpcode, .none⟩]) ∧
      Status.errOpcode ≠ .ok ∧ ∃ u, command [0x06#8] start = .next u :=
  ⟨⟨_, rfl, rfl⟩, by decide, _, rfl⟩

theorem witness_FieldsAreLittleEndian : 0xFFFFFFFF < 256 ^ 4 := by decide

/-- Both sides of the bound of U8. -/
theorem witness_ResponseFrameLayout :
    k0.length < 2 ^ 32 ∧ noFlags.length < 2 ^ 32 ∧
      2 ^ 32 ≤ (List.replicate (2 ^ 32) 0x00#8).length ∧
      2 ^ 32 ≤ (List.replicate (2 ^ 32) true).length :=
  ⟨by decide, by decide, Nat.le_of_eq List.length_replicate.symm,
    Nat.le_of_eq List.length_replicate.symm⟩

theorem witness_PullDataReturnsWholeQueue :
    ({ primed with qd := k0 } : State).qd.length < 2 ^ 32 := by decide

theorem witness_PullErrReturnsWholeQueue :
    ({ primed with qe := noFlags } : State).qe.length < 2 ^ 32 := by decide

theorem witness_ResetStatsClearsCountersOnly : ∃ t, exec .resetStats primed = .next t := ⟨_, rfl⟩

/-- The last cell of the longest line. -/
theorem witness_PowerOnState : small.wf = true ∧ 0 < small.nSym ∧ 2 < small.lineLen 0 :=
  ⟨small_wf, by decide, by decide⟩

/-- The last priming push, with full FIFOs; the cells at both ends of a line. -/
theorem witness_PrimingPushOnlyShifts :
    let s : State := { start4 with fill := 2, qd := k0, qe := noFlags }
    k0.length = s.cfg.nSym ∧ noFlags.length = s.cfg.nSym ∧ s.phase = .run ∧ s.fill < s.cfg.dmax ∧
      0 < s.cfg.nSym ∧ 0 < s.cfg.lineLen 0 ∧ 2 < s.cfg.lineLen 0 ∧ s.BankShape := by decide

/-- A primed bank with room for exactly one codeword. -/
theorem witness_PrimedPushEmitsAndShifts :
    k0.length = primed4.cfg.nSym ∧ noFlags.length = primed4.cfg.nSym ∧ primed4.phase = .run ∧
      primed4.fill = primed4.cfg.dmax ∧ primed4.room primed4.cfg.nSym = true ∧
      0 < primed4.cfg.nSym ∧ 2 < primed4.cfg.lineLen 0 ∧ primed4.BankShape := by decide

theorem witness_FlushEmitsAndClears : primed.room (primed.fill * primed.cfg.nSym) = true := by
  decide

/-- Every outcome occurs. -/
theorem witness_OutputRowByOutcome :
    (clean k0).length = small.nSym ∧ (emission small (clean k0) []).outcome = .passed ∧
      (emission small (clean [0xD5#8, 0x66#8, 0x1C#8, 0x2F#8]) []).outcome = .corrected ∧
      (emission small (clean [0x10#8, 0x21#8, 0x32#8, 0x43#8]) []).outcome = .failed ∧
      (emission small (clean k0) [3]).outcome = .flushed := by decide +kernel

theorem isCodeword_k0 : IsCodeword small k0 := by decide +kernel
theorem isCodeword_k1 : IsCodeword small k1 := by decide +kernel
theorem isCodeword_k2 : IsCodeword small k2 := by decide +kernel

theorem witness_CleanCodewordPassesUnchanged :
    small.wf = true ∧ (∀ x ∈ clean k0, x.f = false) ∧ IsCodeword small (tapBytes (clean k0)) :=
  ⟨small_wf, by decide, isCodeword_k0⟩

/-- `r + 1` erasures. -/
theorem witness_TooManyErasuresFail :
    let tap : List Symbol := [⟨1#8, true⟩, ⟨2#8, true⟩, ⟨3#8, true⟩, ⟨4#8, false⟩]
    tap.length = small.nSym ∧ small.nPar < (tap.filter Symbol.f).length := by decide

theorem witness_FlushCodewordsAreFlushed :
    primed.Inv ∧ primed.room (primed.fill * primed.cfg.nSym) = true := by decide

theorem witness_SyndromeIsParitySum :
    small.wf = true ∧ k0.length = small.nSym ∧ 1 < small.nPar := ⟨small_wf, by decide, by decide⟩

theorem witness_PassedExactlyWhenClean :
    small.wf = true ∧ k0.length = small.nSym ∧ rsDecode small k0 [] = .passed k0 :=
  ⟨small_wf, by decide, by decide +kernel⟩

theorem witness_CorrectedWordIsSound :
    small.wf = true ∧ [0x33#8, 0x00#8, 0x00#8, 0x22#8].length = small.nSym ∧
      ErasureSet small [1, 2] ∧
      rsDecode small [0x33#8, 0x00#8, 0x00#8, 0x22#8] [1, 2] = .corrected k1 :=
  ⟨small_wf, by decide, by decide, by decide +kernel⟩

/-- Two codewords at exactly the distance `r + 1 = 3`. -/
theorem witness_CodewordsFarApart :
    small.wf = true ∧ IsCodeword small k0 ∧ IsCodeword small k1 ∧ k0 ≠ k1 :=
  ⟨small_wf, isCodeword_k0, isCodeword_k1, by decide⟩

theorem witness_CodewordWithinCapacityUnique :
    small.wf = true ∧ [0x33#8, 0x00#8, 0x00#8, 0x22#8].length = small.nSym ∧
      ErasureSet small [1, 2] ∧ IsCodeword small k1 ∧
      WithinCapacity small [0x33#8, 0x00#8, 0x00#8, 0x22#8] [1, 2] k1 :=
  ⟨small_wf, by decide, by decide, isCodeword_k1, by decide⟩

/-- Each clause at capacity: `r` erasures and no error (also the second clause), and one error and
no erasure (V35's word, `k2` with a wrong byte at position 0). -/
theorem witness_ErasuresAndOneErrorAreCorrected :
    (small.wf = true ∧ [0x33#8, 0x00#8, 0x00#8, 0x22#8].length = small.nSym ∧
      ErasureSet small [1, 2] ∧ [1, 2].length = small.nPar ∧ IsCodeword small k1 ∧
      WithinCapacity small [0x33#8, 0x00#8, 0x00#8, 0x22#8] [1, 2] k1 ∧
      errorCount small [1, 2] [0x33#8, 0x00#8, 0x00#8, 0x22#8] k1 = 0) ∧
    ([0xD5#8, 0x66#8, 0x1C#8, 0x2F#8].length = small.nSym ∧ ErasureSet small [] ∧
      IsCodeword small k2 ∧ WithinCapacity small [0xD5#8, 0x66#8, 0x1C#8, 0x2F#8] [] k2 ∧
      errorCount small [] [0xD5#8, 0x66#8, 0x1C#8, 0x2F#8] k2 = 1) :=
  ⟨⟨small_wf, by decide, by decide, by decide, isCodeword_k1, by decide, by decide⟩,
    by decide, by decide, isCodeword_k2, by decide, by decide⟩

theorem witness_InverseIsUnique :
    primitive 0x11D#9 = true ∧ 0x53#8 ≠ 0#8 ∧ gfMul 0x11D#9 0x53#8 0x8C#8 = 0x01#8 :=
  ⟨primitive_default, by decide, by decide +kernel⟩

theorem witness_FieldLaws : primitive 0x11D#9 = true ∧ 0x01#8 ≠ 0x00#8 :=
  ⟨primitive_default, by decide⟩

theorem witness_ProductOfPolynomials : 2 < 3 := by decide

/-- The state after three pushes of program P1 holds them, and the fourth push runs. -/
theorem witness_BankHoldsTheStream :
    small.wf = true ∧ primed.BankHolds pushesP1 ∧ ∃ t, exec push4 primed = .next t :=
  ⟨small_wf, by decide, exec_next push4 primed⟩

/-- Both clauses: a push that does not emit (`N = 2`) and the first that does (`N = Dmax`). -/
theorem witness_PushEmitsAlignedCodeword :
    (({ primed with fill := 2 } : State).BankHolds (pushesP1.drop 1) ∧
      accepts push4 { primed with fill := 2 } = true ∧
      (pushesP1.drop 1).length < primed.cfg.dmax) ∧
    (primed.BankHolds pushesP1 ∧ accepts push4 primed = true ∧
      primed.cfg.dmax ≤ pushesP1.length) := by decide

theorem witness_FlushEmitsRemainingCodewords :
    primed.BankHolds pushesP1 ∧ primed.room (primed.fill * primed.cfg.nSym) = true := by decide

/-- Two states with one push each that differ in the vacant cell `cell[0][2]`. -/
def oneCellApart (x : Symbol) : State :=
  { start with
    cells := [[⟨0x11#8, false⟩, Symbol.vacant, x], clean [0#8, 0#8], clean [0#8], []]
    fill := 1
    inbox := [[0x04#8]] }

theorem witness_VacantCellsUnobservable :
    let s := oneCellApart ⟨0x00#8, false⟩
    let t := oneCellApart ⟨0xEE#8, true⟩
    s.fill ≤ s.cfg.dmax ∧ AgreeOnValid s t ∧ s ≠ t ∧ (∃ s', step s = .next s') ∧
      ∃ t', step t = .next t' :=
  ⟨by decide, by decide, by decide, step_next _, step_next _⟩

theorem witness_PowerOnMeetsInvariant : small.wf = true := small_wf

/-- Invariant states: primed, flushed, and with counters and FIFOs at their bounds. -/
theorem witness_StepKeepsInvariant :
    primed.Inv ∧ flushedState.Inv ∧
      ({ primed4 with qd := k0, qe := noFlags, cnt := ⟨4294967295, 0, 0, 4294967295⟩ } : State).Inv := by
  decide

theorem witness_ConfigurationNeverChanges :
    ∃ t, step { primed with inbox := [[0x08#8]] } = .next t := step_next _

theorem witness_OnlyFlushAndResetChangePhase :
    (∃ t, command [0x04#8] primed = .next t ∧ t.phase ≠ primed.phase) ∧
      ∃ t, command [0x08#8] flushedState = .next t ∧ t.phase ≠ flushedState.phase :=
  ⟨⟨_, rfl, by decide⟩, _, rfl, by decide⟩

/-- Counters at `CMAX` and a command that is neither `RESET_STATS` nor `RESET`. -/
theorem witness_CountersNeverDecrease :
    let s : State := { primedP1 smallCw2 smallCw2_wf with cnt := ⟨3, 3, 3, 3⟩ }
    s.CountersFit ∧ (∃ t, command [0x04#8] s = .next t) ∧ ([0x04#8] : Frame) ≠ [0x05#8] ∧
      ([0x04#8] : Frame) ≠ [0x08#8] :=
  ⟨by decide, command_next _ _, by decide, by decide⟩

theorem witness_OutputStreamIsConserved :
    Instr.pullData ≠ .reset ∧ ∃ t, exec .pullData { primed with qd := k0 } = .next t :=
  ⟨by decide, _, rfl⟩

theorem witness_FifosStayPaired :
    push4 ≠ .pullData ∧ push4 ≠ .pullErr ∧ primed.qd.length = primed.qe.length ∧
      ∃ t, exec push4 primed = .next t :=
  ⟨by decide, by decide, by decide, exec_next push4 primed⟩

/-- Three pushes accounted for in `RUN`, and in `FLUSHED` after a flush of them. -/
theorem witness_CountersAccountForPushes :
    primed.Accounts 3 ∧ Instr.flush ≠ .resetStats ∧
      (∃ t, exec .flush primed = .next t ∧ t.unsaturated = true) ∧
      ({ flushedState with cnt := ⟨0, 0, 0, 3⟩ } : State).Accounts 3 :=
  ⟨by decide, by decide, ends_next (p := State.unsaturated) (by decide +kernel), by decide⟩

theorem witness_CommandsByPhase :
    flushedState.Inv ∧ flushedState.phase = .flushed ∧ k0.length = flushedState.cfg.nSym ∧
      noFlags.length = flushedState.cfg.nSym ∧ primed.Inv ∧ primed.phase = .run ∧
      ∃ t, exec .getStats { primed with phase := .run } = .next t :=
  ⟨by decide, rfl, by decide, by decide, by decide, rfl, _, rfl⟩

theorem witness_WellFormedConfigurations : small.depth ≠ [] ∧ small.wf = true :=
  ⟨by decide, small_wf⟩

/-- The longest push. -/
theorem witness_PseudoInstructionFrames : (List.replicate 255 0xFF#8).length ≤ 255 :=
  Nat.le_of_eq List.length_replicate

/-- Block 1 of two lists that differ in block 0. -/
theorem witness_OtherBlocksUntouched :
    (∃ bs', stepBlock 1 [start, primed] = .next bs') ∧
      (∃ cs', stepBlock 1 [flushedState, primed] = .next cs') ∧
      ([start, primed] : List State)[1]? = ([flushedState, primed] : List State)[1]? ∧
      (0 : Nat) ≠ 1 :=
  ⟨⟨_, rfl⟩, ⟨_, rfl⟩, rfl, by decide⟩

end Sys2Proof.Tests
end

section
/-! Proofs about the configuration (spec/00_scope.md R7): the whole condition of well-formedness as
one equivalence, assembled from one equivalence per clause, and the constants of the default
configuration. -/

namespace Sys2Proof

/-- `Dmax` is the delay of some position, for every non-empty list of delays (R7). -/
theorem Config.exists_d_eq_dmax_of_depth_ne_nil {c : Config} (h : c.depth ≠ []) :
    ∃ i < c.depth.length, c.d i = c.dmax := by
  have hpos : 0 < c.depth.length := List.length_pos_of_ne_nil h
  rcases foldl_max_attained c.depth 0 with hzero | hmem
  · have hmax : c.dmax = 0 := hzero
    have hle := c.d_le_dmax 0
    exact ⟨0, hpos, by omega⟩
  · exact hmem

/-- "0 occurs in `D`" is "some position has delay 0", the clause `min D = 0` of R7. -/
theorem Config.depth_clause_iff (c : Config) :
    c.depth.length = c.nSym ∧ c.depth.contains 0 = true ↔
      c.depth.length = c.nSym ∧ ∃ i < c.nSym, c.d i = 0 := by
  refine and_congr_right fun hlen => ?_
  rw [List.contains_iff_mem, List.mem_iff_getElem, ← hlen]
  constructor
  · rintro ⟨i, hi, h0⟩
    exact ⟨i, hi, by rw [Config.d, List.getD_eq_getElem _ _ hi, h0]⟩
  · rintro ⟨i, hi, h0⟩
    exact ⟨i, hi, by rw [← h0, Config.d, List.getD_eq_getElem _ _ hi]⟩

theorem Config.qcapOk_iff (c : Config) :
    c.qcapOk = true ↔ ∀ q, c.qcap = some q → c.nSym ≤ q := by
  unfold Config.qcapOk
  cases c.qcap <;> simp

/-- `0x02` has multiplicative order 255: its 255th power is one and no smaller positive power is
(R7, R93). -/
theorem Machine.primitive_iff (P : Poly9) :
    Machine.primitive P = true ↔ Machine.gfPow P 0x02#8 255 = 0x01#8 ∧
      ∀ e, 0 < e → e < 255 → Machine.gfPow P 0x02#8 e ≠ 0x01#8 := by
  constructor
  · intro h
    exact ⟨Machine.primitive_pow_255 h, fun e h0 h255 => Machine.primitive_pow_ne_one h h0 h255⟩
  · rintro ⟨hone, hne⟩
    simp only [Machine.primitive, Bool.and_eq_true, beq_iff_eq, List.all_eq_true, List.mem_range,
      bne_iff_ne]
    exact ⟨hone, fun e he => hne (e + 1) (by omega) (by omega)⟩

/-- Well-formedness is the conjunction of the clauses of R7. -/
theorem Config.wf_iff (c : Config) :
    c.wf = true ↔
      (2 ≤ c.nSym ∧ c.nSym ≤ 255) ∧ (1 ≤ c.nPar ∧ c.nPar ≤ c.nSym - 1) ∧
        (c.depth.length = c.nSym ∧ ∃ i < c.nSym, c.d i = 0) ∧
        (c.gfPoly.getLsbD 8 = true ∧ Machine.gfPow c.gfPoly 0x02#8 255 = 0x01#8 ∧
          ∀ e, 0 < e → e < 255 → Machine.gfPow c.gfPoly 0x02#8 e ≠ 0x01#8) ∧
        c.fcr ≤ 254 ∧ (∀ q, c.qcap = some q → c.nSym ≤ q) ∧ 1 ≤ c.cw := by
  simp only [Config.wf, Bool.and_eq_true, decide_eq_true_eq, beq_iff_eq, c.depth_clause_iff,
    c.qcapOk_iff, Machine.primitive_iff, and_assoc]

/-- A block can be constructed exactly for the well-formed configurations; any other is refused
(R7). -/
theorem Machine.construct_isSome_iff (c : Config) :
    (Machine.construct c).isSome = true ↔ c.wf = true := by
  rw [Option.isSome_iff_ne_none, ne_eq, Machine.construct_eq_none, Bool.not_eq_false]

theorem Config.default_k : Config.default.k = 24 := rfl

theorem Config.default_dmax : Config.default.dmax = 108 := by decide

/-- The delays of R6's default: four codeword periods more per position. -/
theorem Config.default_d {i : Nat} (h : i < 28) : Config.default.d i = 4 * i := by
  simp [Config.d, Config.default, h]

theorem Config.default_lineLen {i : Nat} (h : i < 28) :
    Config.default.lineLen i = 108 - 4 * i := by
  rw [Config.lineLen, Config.default_dmax, Config.default_d h]

theorem Config.default_bankSize : Config.default.bankSize = 1512 := by decide

/-- Settles O58: the derived constants by their lemmas, construction through `Config.wf_iff`. -/
theorem wellFormedConfigurations : Obligations.WellFormedConfigurations := by
  unfold Obligations.WellFormedConfigurations
  refine ⟨fun c => ⟨rfl, c.d_le_dmax, Config.exists_d_eq_dmax_of_depth_ne_nil, fun _ => rfl, rfl,
    rfl, ?_⟩, Config.default_k, Config.default_dmax, Config.default_bankSize,
    fun _ hi => Config.default_lineLen hi⟩
  rw [Machine.construct_isSome_iff, Config.wf_iff]

end Sys2Proof
end

section
/-! Proofs about the encoding (spec/30_encoding.md): the frames of the pseudo-instructions (R71). -/

namespace Sys2Proof

/-- The frame of a push whose flags are all `flag` (R63, R71). -/
theorem Machine.encode_pushAll (flag : Bool) (data : List Byte) :
    encode (pushAll flag data) =
      0x01#8 :: BitVec.ofNat 8 data.length :: BitVec.ofNat 8 data.length ::
        (data ++ List.replicate data.length (flagByte flag)) := by
  simp [pushAll, encode, Instr.opcode, List.map_const']

/-- Settles O60: the two pushes by `Machine.encode_pushAll`, the other lines by their expansions.
The bound on the length is not needed, since the model's frame is defined for longer lists too. -/
theorem pseudoInstructionFrames : Obligations.PseudoInstructionFrames := by
  intro data _
  refine ⟨?clean, ?erased, ?poll, ?drain⟩
  case clean => exact congrArg (fun F => [F]) (Machine.encode_pushAll false data)
  case erased => exact congrArg (fun F => [F]) (Machine.encode_pushAll true data)
  case poll => rfl
  case drain => rfl

end Sys2Proof
end

section
/-! Proofs about GF(2^8) (spec/40_gf_arithmetic.md R93 to R100).  The one counting step: under a
polynomial for which `alpha` is primitive, the powers of `alpha` with exponents `0..254` are
distinct and non-zero, so they are all 255 non-zero bytes.  Logarithms, inverses and the remaining
laws of the field follow from that. -/

namespace Sys2Proof.Machine

/-! ### The powers of `alpha` are the non-zero bytes -/

/-- Completing the exponent to 255 gives the inverse of a power of `alpha` (R94). -/
theorem alphaPow_mul_complement {P : Poly9} (h : primitive P = true) {e : Nat} (he : e ≤ 255) :
    gfMul P (alphaPow P e) (alphaPow P (255 - e)) = 1#8 := by
  rw [← alphaPow_add h, Nat.add_sub_cancel' he]
  rfl

theorem alphaPow_ne_zero {P : Poly9} (h : primitive P = true) {e : Nat} (he : e ≤ 255) :
    alphaPow P e ≠ 0#8 := by
  intro h0
  have hone := alphaPow_mul_complement h he
  simp [h0] at hone

theorem alphaPow_ne_of_lt {P : Poly9} (h : primitive P = true) {i j : Nat} (hij : i < j)
    (hj : j < 255) : alphaPow P i ≠ alphaPow P j := by
  intro heq
  have hone : alphaPow P (i + (255 - j)) = 1#8 := by
    rw [alphaPow_add h, heq, alphaPow_mul_complement h hj.le]
  rw [alphaPow_eq_gfPow h] at hone
  exact primitive_pow_ne_one h (by omega) (by omega) hone

theorem alphaPow_injOn {P : Poly9} (h : primitive P = true) :
    Set.InjOn (alphaPow P) (Finset.range 255) := by
  intro i hi j hj heq
  rw [Finset.mem_coe, Finset.mem_range] at hi hj
  rcases Nat.lt_trichotomy i j with hij | hij | hij
  · exact absurd heq (alphaPow_ne_of_lt h hij hj)
  · exact hij
  · exact absurd heq.symm (alphaPow_ne_of_lt h hij hi)

theorem card_nonzero_bytes : (Finset.univ.erase 0#8 : Finset Byte).card = 255 := by
  rw [Finset.card_erase_of_mem (Finset.mem_univ _), Finset.card_univ,
    ← FinEnum.card_eq_fintypeCard, FinEnum.card_bitVec]
  rfl

/-- Every non-zero byte is a power of `alpha`: 255 distinct powers fill the 255 non-zero bytes
(R93). -/
theorem exists_alphaPow_eq {P : Poly9} (h : primitive P = true) {a : Byte} (ha : a ≠ 0#8) :
    ∃ e < 255, alphaPow P e = a := by
  have hmaps : Set.MapsTo (alphaPow P) (Finset.range 255) (Finset.univ.erase 0#8 : Finset Byte) :=
    fun e he => Finset.mem_coe.mpr <| Finset.mem_erase.mpr
      ⟨alphaPow_ne_zero h (Finset.mem_range.mp he).le, Finset.mem_univ _⟩
  have hcard : (Finset.univ.erase 0#8 : Finset Byte).card ≤ (Finset.range 255).card := by
    rw [card_nonzero_bytes, Finset.card_range]
  obtain ⟨e, he, hpow⟩ := Finset.surjOn_of_injOn_of_card_le _ hmaps (alphaPow_injOn h) hcard
    (Finset.mem_coe.mpr <| Finset.mem_erase.mpr ⟨ha, Finset.mem_univ a⟩)
  exact ⟨e, Finset.mem_range.mp he, hpow⟩

/-! ### Logarithms -/

theorem alphaPow_of_gfLog {P : Poly9} {a : Byte} {e : Nat} (h : gfLog P a = some e) :
    e < 255 ∧ alphaPow P e = a :=
  ⟨List.mem_range.mp (List.mem_of_find?_eq_some h), by simpa using List.find?_some h⟩

/-- Every non-zero byte has a logarithm (R93). -/
theorem exists_gfLog_eq_some {P : Poly9} (h : primitive P = true) {a : Byte} (ha : a ≠ 0#8) :
    ∃ e, gfLog P a = some e := by
  obtain ⟨e, he, hpow⟩ := exists_alphaPow_eq h ha
  rw [← Option.isSome_iff_exists, gfLog, List.find?_isSome]
  exact ⟨e, List.mem_range.mpr he, by simpa using hpow⟩

/-! ### Inverses -/

theorem gfPow_255 {P : Poly9} (h : primitive P = true) {a : Byte} (ha : a ≠ 0#8) :
    gfPow P a 255 = 1#8 := by
  obtain ⟨e, -, rfl⟩ := exists_alphaPow_eq h ha
  rw [alphaPow_eq_gfPow h, ← gfPow_mul, Nat.mul_comm, gfPow_mul, primitive_pow_255 h,
    gfPow_one_base]

/-- The chain of squarings and multiplications of `GFINV` computes `a^254` (R94). -/
theorem gfInv_eq_gfPow (P : Poly9) (a : Byte) (ha : a ≠ 0#8) : gfInv P a ha = gfPow P a 254 := by
  have hsquare : gfMul P a a = gfPow P a 2 := by simp [gfPow_succ]
  simp only [gfInv, hsquare, ← gfPow_add]

theorem gfMul_gfInv {P : Poly9} (h : primitive P = true) {a : Byte} (ha : a ≠ 0#8) :
    gfMul P a (gfInv P a ha) = 1#8 := by
  rw [gfInv_eq_gfPow, gfMul_comm, ← gfPow_succ, gfPow_255 h ha]

/-- Multiplication by a non-zero byte is undone by its inverse. -/
theorem gfInv_mul_cancel_left {P : Poly9} (h : primitive P = true) {a : Byte} (ha : a ≠ 0#8)
    (b : Byte) : gfMul P (gfInv P a ha) (gfMul P a b) = b := by
  rw [← gfMul_assoc, gfMul_comm P (gfInv P a ha), gfMul_gfInv h ha, gfMul_one_left]

theorem eq_gfInv_of_mul_eq_one {P : Poly9} (h : primitive P = true) {a b : Byte} (ha : a ≠ 0#8)
    (hab : gfMul P a b = 1#8) : b = gfInv P a ha := by
  rw [← gfInv_mul_cancel_left h ha b, hab, gfMul_one_right]

theorem gfInv_eq_alphaPow {P : Poly9} (h : primitive P = true) {a : Byte} (ha : a ≠ 0#8) {e : Nat}
    (hlog : gfLog P a = some e) : gfInv P a ha = alphaPow P (255 - e) := by
  obtain ⟨he, hpow⟩ := alphaPow_of_gfLog hlog
  have hone : gfMul P a (alphaPow P (255 - e)) = 1#8 := by
    rw [← hpow, alphaPow_mul_complement h he.le]
  exact (eq_gfInv_of_mul_eq_one h ha hone).symm

/-! ### Products -/

/-- There are no zero divisors (R100). -/
theorem gfMul_eq_zero_iff {P : Poly9} (h : primitive P = true) (a b : Byte) :
    gfMul P a b = 0#8 ↔ a = 0#8 ∨ b = 0#8 := by
  constructor
  · intro hab
    by_cases ha : a = 0#8
    · exact .inl ha
    · exact .inr (by rw [← gfInv_mul_cancel_left h ha b, hab, gfMul_zero_right])
  · rintro (rfl | rfl)
    · exact gfMul_zero_left P b
    · exact gfMul_zero_right P a

theorem existsUnique_gfMul_eq_one {P : Poly9} (h : primitive P = true) {a : Byte} (ha : a ≠ 0#8) :
    ∃! b, gfMul P a b = 1#8 :=
  ⟨gfInv P a ha, gfMul_gfInv h ha, fun _ hab => eq_gfInv_of_mul_eq_one h ha hab⟩

theorem alphaPow_mod (P : Poly9) (e : Nat) : alphaPow P (e % 255) = alphaPow P e := by
  rw [alphaPow, Nat.mod_mod, alphaPow]

/-- A product of non-zero bytes is `alpha` to the sum of their logarithms (R100). -/
theorem gfMul_eq_alphaPow_of_gfLog {P : Poly9} (h : primitive P = true) {a b : Byte} {x y : Nat}
    (ha : gfLog P a = some x) (hb : gfLog P b = some y) :
    gfMul P a b = alphaPow P ((x + y) % 255) := by
  obtain ⟨-, hx⟩ := alphaPow_of_gfLog ha
  obtain ⟨-, hy⟩ := alphaPow_of_gfLog hb
  rw [alphaPow_mod, alphaPow_add h, hx, hy]

/-! ### Evaluation of polynomials -/

@[simp] theorem polyEval_nil (P : Poly9) (x : Byte) : polyEval P [] x = 0#8 := rfl

/-- One round of Horner's rule (R97). -/
@[simp] theorem polyEval_cons (P : Poly9) (c : Byte) (p : List Byte) (x : Byte) :
    polyEval P (c :: p) x = gfMul P (polyEval P p x) x ^^^ c := rfl

/-- Horner's rule computes the sum of `p[l] * x^l`, with the model's `x^0 = 0x01` (R97). -/
theorem polyEval_eq_gfSum (P : Poly9) (p : List Byte) (x : Byte) :
    polyEval P p x =
      gfSum ((List.range p.length).map fun l => gfMul P (p.getD l 0#8) (gfPow P x l)) := by
  induction p with
  | nil => rfl
  | cons c p ih =>
    rw [polyEval_cons, ih, gfMul_gfSum, List.length_cons, List.range_succ_eq_map]
    simp [Function.comp_def, gfPow_succ, gfMul_assoc, BitVec.xor_comm]

end Sys2Proof.Machine

namespace Sys2Proof

open Machine

/-- Settles O40: the power by `gfInv_eq_gfPow`, the rest from `a^255 = 0x01` and the logarithm. -/
theorem inverseIsUnique : Obligations.InverseIsUnique := by
  intro P a ha h
  obtain ⟨e, hlog⟩ := exists_gfLog_eq_some h ha
  exact ⟨gfMul_gfInv h ha, fun _ hab => eq_gfInv_of_mul_eq_one h ha hab, gfInv_eq_gfPow P a ha,
    e, hlog, gfInv_eq_alphaPow h ha hlog⟩

/-- Settles O41: the ring laws hold under every polynomial; those about inverses, powers and
logarithms rest on `exists_alphaPow_eq`. -/
theorem fieldLaws : Obligations.FieldLaws := by
  intro P h
  refine ⟨BitVec.xor_assoc, BitVec.xor_comm, fun _ => BitVec.xor_self, gfMul_assoc P,
    gfMul_comm P, gfMul_xor_right P, gfMul_eq_zero_iff h,
    fun _ ha => existsUnique_gfMul_eq_one h ha, fun _ ha => gfPow_255 h ha,
    fun e g => (alphaPow_add h e g).symm, fun a b ha hb => ?logarithms⟩
  case logarithms =>
    obtain ⟨x, hx⟩ := exists_gfLog_eq_some h ha
    obtain ⟨y, hy⟩ := exists_gfLog_eq_some h hb
    exact ⟨x, y, hx, hy, gfMul_eq_alphaPow_of_gfLog h hx hy⟩

/-- Settles O42: `polyEval_eq_gfSum`, its constant term `p[0] * x^0` being `p[0]`. -/
theorem polynomialEvaluation : Obligations.PolynomialEvaluation := by
  intro P p x
  refine ⟨?_, polyEval_nil P x⟩
  rw [polyEval_eq_gfSum]
  congr 2
  funext l
  split
  · next hl => rw [hl, gfPow_zero, gfMul_one_right]
  · rfl

end Sys2Proof
end

section
/-! Proofs about the decoder `RSDEC` and what becomes of its outcome (spec/41_rs_decoder.md R113,
R114; spec/43_orchestrator.md R163).  Horner's rule over a word is the evaluation of the word read
backwards, so the syndromes are the sums that `polyEval_eq_gfSum` gives, taken in reverse order. -/

namespace Sys2Proof.Machine

/-! ### The erasure count -/

/-- `e` is the number of flagged symbols (R113, R145). -/
theorem tapErasures_length (tap : List Symbol) :
    (tapErasures tap).length = (tap.filter Symbol.f).length := by
  have htap : (List.range tap.length).map (tap.getD · Symbol.vacant) = tap :=
    List.ext_getElem (by simp) fun i _ hi => by simp [hi]
  conv_rhs => rw [← htap, List.filter_map, List.length_map]
  rfl

theorem rsDecode_eq_failed_of_lt {c : Config} (w : List Byte) {E : List Nat}
    (h : c.nPar < E.length) : rsDecode c w E = .failed := if_pos h

/-- Row `Failed` of `OUTPUT`, all flags 1 (R163). -/
theorem emission_of_failed {cfg : Config} {tap : List Symbol}
    (h : rsDecode cfg (tapBytes tap) (tapErasures tap) = .failed) :
    emission cfg tap [] =
      ⟨.failed, failedBytes cfg (tapBytes tap), List.replicate tap.length true⟩ := by
  simp [emission, h, List.map_const']

theorem failedBytes_eq (cfg : Config) (w : List Byte) :
    failedBytes cfg w =
      if cfg.failPolicy = .passThrough then w else List.replicate w.length 0#8 := by
  unfold failedBytes
  cases cfg.failPolicy with
  | passThrough => rfl
  | zeroFill => exact List.map_const' ..

/-! ### Syndromes -/

@[simp] theorem syndromes_length (c : Config) (w : List Byte) :
    (syndromes c w).length = c.nPar := by simp [syndromes]

theorem syndromes_getD (c : Config) (w : List Byte) {j : Nat} (hj : j < c.nPar) :
    (syndromes c w).getD j 0#8 = horner c.gfPoly w (alphaPow c.gfPoly (c.fcr + j)) := by
  rw [syndromes, getD_map_range _ _ _ _ hj]

theorem gfSum_reverse (l : List Byte) : gfSum l.reverse = gfSum l := by
  induction l with
  | nil => rfl
  | cons x l ih => simp [gfSum_append, ih, BitVec.xor_comm]

/-- A sum over positions may be taken from the last position down. -/
theorem gfSum_range_reflect (f : Nat → Byte) (n : Nat) :
    gfSum ((List.range n).map fun i => f (n - 1 - i)) = gfSum ((List.range n).map f) := by
  have hback : (List.range n).reverse = (List.range n).map (n - 1 - ·) := by
    simp [List.range_eq_range', List.reverse_range']
  rw [← gfSum_reverse ((List.range n).map f), ← List.map_reverse, hback, List.map_map]
  rfl

theorem horner_eq_polyEval_reverse (P : Poly9) (w : List Byte) (z : Byte) :
    horner P w z = polyEval P w.reverse z := by
  rw [horner, polyEval, List.foldr_reverse]

/-- Horner's rule over the positions in order weights position `i` by `z^(n-1-i)` (R114). -/
theorem horner_eq_gfSum (P : Poly9) (w : List Byte) (z : Byte) :
    horner P w z =
      gfSum ((List.range w.length).map fun i =>
        gfMul P (w.getD i 0#8) (gfPow P z (w.length - 1 - i))) := by
  rw [horner_eq_polyEval_reverse, polyEval_eq_gfSum, List.length_reverse, ← gfSum_range_reflect]
  refine congrArg gfSum (List.map_congr_left fun i hi => ?_)
  rw [List.mem_range] at hi
  have hback : w.length - 1 - (w.length - 1 - i) = i := by omega
  rw [List.getD_reverse _ (by omega), hback]

theorem gfPow_alphaPow {P : Poly9} (h : primitive P = true) (e g : Nat) :
    gfPow P (alphaPow P e) g = alphaPow P (e * g) := by
  rw [alphaPow_eq_gfPow h, alphaPow_eq_gfPow h, gfPow_mul]

end Sys2Proof.Machine

namespace Sys2Proof

open Machine

/-- Settles O32: the flagged symbols are the erasures, more than `r` of them end `RSDEC` at step 1,
and the rest is row `Failed` of `OUTPUT`. -/
theorem tooManyErasuresFail : Obligations.TooManyErasuresFail := by
  intro cfg tap hlen hmany
  rw [← tapErasures_length] at hmany
  rw [emission_of_failed (rsDecode_eq_failed_of_lt _ hmany), failedBytes_eq, tapBytes_length, hlen]

/-- Settles O34: `horner_eq_gfSum` at the point `alpha^(FCR+j)`, whose powers are those of
`alpha`. -/
theorem syndromeIsParitySum : Obligations.SyndromeIsParitySum := by
  intro c w hwf hlen
  refine ⟨syndromes_length c w, fun j hj => ?_⟩
  rw [syndromes_getD c w hj, horner_eq_gfSum, hlen]
  simp only [gfPow_alphaPow (Config.wf_gfPoly hwf)]

end Sys2Proof
end

section
/-! Proofs about the orchestrator (spec/43_orchestrator.md): what `OUTPUT` appends for each outcome
(R163), and the two commands on the counters (R165, R166). -/

namespace Sys2Proof.Machine

/-! ### The rows of `OUTPUT` -/

/-- Row `Passed` of `OUTPUT`: `RSDEC` passes only the received word itself (R125, R163). -/
theorem emission_of_passed {cfg : Config} {tap : List Symbol} {v : List Byte}
    (h : rsDecode cfg (tapBytes tap) (tapErasures tap) = .passed v) :
    emission cfg tap [] = ⟨.passed, tapBytes tap, List.replicate tap.length false⟩ := by
  obtain ⟨rfl, -, -⟩ := rsDecode_passed h
  simp [emission, h, List.map_const']

/-- Row `Corrected` of `OUTPUT` (R163). -/
theorem emission_of_corrected {cfg : Config} {tap : List Symbol} {v : List Byte}
    (h : rsDecode cfg (tapBytes tap) (tapErasures tap) = .corrected v) :
    emission cfg tap [] = ⟨.corrected, v, List.replicate tap.length false⟩ := by
  simp [emission, h, List.map_const']

/-- Byte `i` of row `Failed`, beyond the end too, where both sides read `0x00` (R163). -/
theorem failedBytes_getD (cfg : Config) (w : List Byte) (i : Nat) :
    (failedBytes cfg w).getD i 0#8 =
      if cfg.failPolicy = .passThrough then w.getD i 0#8 else 0#8 := by
  rw [failedBytes_eq]
  split
  · rfl
  · exact replicate_getD_self ..

/-- Byte `i` of row `Flushed` (R163). -/
theorem flushedBytes_getD (cfg : Config) {w : List Byte} (miss : List Nat) {i : Nat}
    (hi : i < w.length) :
    (flushedBytes cfg w miss).getD i 0#8 =
      if i ∈ miss ∨ cfg.failPolicy = .zeroFill then 0#8 else w.getD i 0#8 := by
  rw [flushedBytes, getD_map_range _ _ _ _ hi]
  simp only [Bool.or_eq_true, List.contains_iff_mem, beq_iff_eq]

/-- Inversion: a codeword is classified in one of four ways, each with its row (R162, R163). -/
theorem emission_cases (cfg : Config) (tap : List Symbol) (miss : List Nat) :
    (miss ≠ [] ∧
        emission cfg tap miss =
          ⟨.flushed, flushedBytes cfg (tapBytes tap) miss, List.replicate tap.length true⟩) ∨
      (miss = [] ∧ rsDecode cfg (tapBytes tap) (tapErasures tap) = .passed (tapBytes tap) ∧
        emission cfg tap miss = ⟨.passed, tapBytes tap, List.replicate tap.length false⟩) ∨
      (∃ v, miss = [] ∧ rsDecode cfg (tapBytes tap) (tapErasures tap) = .corrected v ∧
        emission cfg tap miss = ⟨.corrected, v, List.replicate tap.length false⟩) ∨
      (miss = [] ∧ rsDecode cfg (tapBytes tap) (tapErasures tap) = .failed ∧
        emission cfg tap miss =
          ⟨.failed, failedBytes cfg (tapBytes tap), List.replicate tap.length true⟩) := by
  by_cases hmiss : miss = []
  · subst hmiss
    cases hdec : rsDecode cfg (tapBytes tap) (tapErasures tap) with
    | passed v => exact .inr (.inl ⟨rfl, by rw [(rsDecode_passed hdec).1], emission_of_passed hdec⟩)
    | corrected v => exact .inr (.inr (.inl ⟨v, rfl, rfl, emission_of_corrected hdec⟩))
    | failed => exact .inr (.inr (.inr ⟨rfl, rfl, emission_of_failed hdec⟩))
  · exact .inl ⟨hmiss, by rw [emission_of_missing hmiss, List.map_const']⟩

/-! ### The commands on the counters -/

/-- A one-byte frame of a format Z opcode performs the command it names (R61, R62). -/
theorem command_formatZ {op : Byte} {i : Instr} (s : State) (h : formatZ op = some i) :
    command [op] s = exec i s :=
  command_of_ok s (by rw [decode_formatZ [] h, if_pos rfl])

/-- `GET_STATS` is accepted in every state and writes none of it (R166). -/
theorem exec_getStats (s : State) :
    exec .getStats s = .next (s.reply ⟨.ok, .counters s.cnt⟩) := exec_accepted rfl

/-- `RESET_STATS` is accepted in every state and writes the counters alone (R165). -/
theorem exec_resetStats (s : State) :
    exec .resetStats s = .next (s.clearCounters.reply ⟨.ok, .none⟩) := exec_accepted rfl

theorem responseBytes_counters (cfg : Config) (c : Counters) :
    responseBytes cfg ⟨.ok, .counters c⟩ = some (0x00#8 :: counterBytes cfg c) := rfl

end Sys2Proof.Machine

namespace Sys2Proof

open Machine

/-- Settles O30: the lengths are `emission_od_length` and `emission_oe_length`; the rows are read
off case by case, the outcome of each case ruling out the other rows. -/
theorem outputRowByOutcome : Obligations.OutputRowByOutcome := by
  intro cfg tap miss hlen
  refine ⟨emission_od_length miss hlen, (emission_oe_length cfg tap miss).trans hlen, ?_⟩
  rcases emission_cases cfg tap miss with
    ⟨hmiss, he⟩ | ⟨hmiss, hdec, he⟩ | ⟨v, hmiss, hdec, he⟩ | ⟨hmiss, hdec, he⟩ <;> rw [he]
  case inl =>
    have hbytes : ∀ i < cfg.nSym, (flushedBytes cfg (tapBytes tap) miss).getD i 0#8 =
        if i ∈ miss ∨ cfg.failPolicy = .zeroFill then 0#8 else (tapBytes tap).getD i 0#8 :=
      fun i hi => flushedBytes_getD cfg miss (by simpa [hlen] using hi)
    simpa [hmiss] using hbytes
  case inr.inl => simp [hmiss, hdec]
  case inr.inr.inl => simp [hmiss, hdec]
  case inr.inr.inr =>
    simpa [hmiss, hdec] using fun i (_ : i < cfg.nSym) => failedBytes_getD cfg (tapBytes tap) i

/-- Settles O22: the command's effect is `clearCounters`, and a `GET_STATS` in the next state
answers the counters it finds there. -/
theorem resetStatsClearsCountersOnly : Obligations.ResetStatsClearsCountersOnly := by
  intro s
  refine ⟨exec_resetStats s, command_formatZ s rfl, fun t ht => ?_⟩
  obtain rfl : s.clearCounters.reply ⟨.ok, .none⟩ = t := by simpa [exec_resetStats] using ht
  exact exec_getStats _

/-- Settles O23: the command only answers, and the payload is `counterBytes` behind the status. -/
theorem getStatsIsASnapshot : Obligations.GetStatsIsASnapshot := fun s =>
  ⟨exec_getStats s, command_formatZ s rfl, responseBytes_counters s.cfg s.cnt⟩

end Sys2Proof
end

section
/-! Proofs about the commands in the two phases (spec/44_fifo_flush.md R189): which commands do not
read the phase, when a command is refused for it, and what an accepted flush does to an empty
bank. -/

namespace Sys2Proof.Machine

/-- The pulls, the statistics commands and the report do not read the phase: from a state moved to
phase `p` they do what they do from the state itself, and stay in `p` (R189). -/
theorem exec_setPhase {i : Instr}
    (hi : i ∈ [Instr.pullData, .pullErr, .getStats, .resetStats, .reportStatus]) (p : Phase)
    (s : State) :
    exec i (s.setPhase p) = .next (((performed i s).reply ⟨.ok, answer i s⟩).setPhase p) := by
  simp only [List.mem_cons, List.not_mem_nil, or_false] at hi
  rcases hi with rfl | rfl | rfl | rfl | rfl
  case inl => rfl
  case inr.inl => rfl
  case inr.inr.inl => rfl
  case inr.inr.inr.inl => rfl
  case inr.inr.inr.inr => rfl

/-- A push is well-sized when both of its sequences have `n` elements (R204). -/
theorem wellSized_pushC1_iff {n : Nat} {data : List Byte} {flags : List Bool} :
    (Instr.pushC1 data flags).wellSized n = true ↔ data.length = n ∧ flags.length = n := by
  simp [Instr.wellSized]

theorem refusal_pushC1_of_flushed {data : List Byte} {flags : List Bool} {s : State}
    (hw : (Instr.pushC1 data flags).wellSized s.cfg.nSym = true) (hp : s.phase = .flushed) :
    refusal (.pushC1 data flags) s = .errState := by
  simp [refusal, hw, hp]

/-- No command is refused for the phase in `RUN` (R189, R205). -/
theorem refusal_ne_errState_of_run (i : Instr) {s : State} (hp : s.phase = .run) :
    refusal i s ≠ .errState := by
  unfold refusal
  split
  · split <;> simp [hp]
  · simp

/-- No push is accepted in `FLUSHED` (R161, R205). -/
theorem accepts_pushC1_of_flushed (data : List Byte) (flags : List Bool) {s : State}
    (hp : s.phase = .flushed) : accepts (.pushC1 data flags) s = false := by
  simp [accepts, hp]

/-- A flush of an empty bank emits no codeword (R185). -/
theorem performed_flush_of_empty {s : State} (hf : s.fill = 0) :
    performed .flush s = s.clearBank.setPhase .flushed := by
  simp [performed, hf, State.flushAll]

theorem State.setPhase_eq_self {p : Phase} {s : State} (hp : s.phase = p) : s.setPhase p = s := by
  subst hp; rfl

/-- `CLEAR` of an empty bank writes only the cells (R151). -/
theorem State.clearBank_of_empty {s : State} (hf : s.fill = 0) :
    s.clearBank = { s with
      cells := (List.range s.cfg.nSym).map fun i =>
        List.replicate (s.cfg.lineLen i) Symbol.vacant } := by
  rw [State.clearBank, ← hf]

/-- A flush in `FLUSHED` is accepted, since it needs no room, and writes only the cells of the empty
bank (R189). -/
theorem exec_flush_of_flushed {s : State} (hs : s.Inv) (hp : s.phase = .flushed) :
    exec .flush s = .next (State.reply ⟨.ok, .none⟩ { s with
      cells := (List.range s.cfg.nSym).map fun i =>
        List.replicate (s.cfg.lineLen i) Symbol.vacant }) := by
  obtain ⟨-, -, hempty, -, -, hroom, -⟩ := hs
  have hf : s.fill = 0 := hempty hp
  have hacc : accepts .flush s = true := by simpa [accepts, hf] using hroom
  rw [exec_accepted hacc, performed_flush_of_empty hf, State.setPhase_eq_self (s := s.clearBank) hp,
    State.clearBank_of_empty hf]
  rfl

end Sys2Proof.Machine

namespace Sys2Proof

open Machine

/-- Settles O57: in `FLUSHED` a flush meets an empty bank and a well-sized push is refused for the
phase; the five other commands do not read the phase; and in `RUN` the status appended, `OK` or a
refusal's, is not ERR_STATE. -/
theorem commandsByPhase : Obligations.CommandsByPhase := by
  intro s hs
  refine ⟨fun hp => ⟨exec_flush_of_flushed hs hp, ⟨_, exec_accepted rfl, rfl⟩,
      fun data flags hd hf => ?push⟩,
    fun i hi t ht => ?phaseBlind, fun hp i t ht => ?run⟩
  case push =>
    rw [exec_refused (accepts_pushC1_of_flushed data flags hp),
      refusal_pushC1_of_flushed (wellSized_pushC1_iff.2 ⟨hd, hf⟩) hp]
    rfl
  case phaseBlind =>
    have hrun := exec_setPhase hi .run s
    obtain rfl := Host.Outcome.next.inj (ht.symm.trans hrun)
    exact exec_setPhase hi .flushed s
  case run =>
    rcases exec_cases ht with ⟨-, rfl⟩ | ⟨-, rfl⟩
    · simp
    · simp [refusal_ne_errState_of_run i hp]

end Sys2Proof
end

section
/-! Proofs about refused frames (spec/60_exceptions.md R201 to R207): how each class of push frame
decodes, the one status a frame is answered with, and that no command reads the response stream. -/

namespace Sys2Proof

/-! ### How a frame decodes, by its bytes -/

/-- The opcodes `0x02..0x08` name a command (R61). -/
theorem exists_formatZ_eq_some {op : Byte} (h2 : 2 ≤ op.toNat) (h8 : op.toNat ≤ 8) :
    ∃ i, formatZ op = some i := by
  refine Option.ne_none_iff_exists'.1 fun hnone => ?_
  have := formatZ_eq_none.1 hnone
  omega

/-- The byte that names a format Z command is its opcode (R61). -/
theorem opcode_of_formatZ {op : Byte} {i : Instr} (h : formatZ op = some i) : i.opcode = op := by
  have hhead : (encode i).head? = some i.opcode := by cases i <;> rfl
  rw [(formatZ_eq_some h).1] at hhead
  exact (Option.some.inj hhead).symm

/-- The illegal first bytes: no format Z opcode, and not `0x01` (R68, R202). -/
theorem formatZ_eq_none_iff_illegal {op : Byte} (hpush : op ≠ 0x01#8) :
    formatZ op = none ↔ op = 0x00#8 ∨ 0x09 ≤ op.toNat := by
  rw [formatZ_eq_none]
  bv_omega

/-- A push frame whose length is not the one its own bytes require (R203 d). -/
theorem decode_push_of_length_ne {dlen flen : Byte} {body : Frame}
    (h : body.length ≠ dlen.toNat + flen.toNat) :
    decode (0x01#8 :: dlen :: flen :: body) = .error .errFormat := by
  rw [decode_push, decodePush_cons, if_pos h]

/-- A push frame of consistent length with a reserved flag byte (R203 e). -/
theorem decode_push_of_reserved {dlen flen : Byte} {body : Frame}
    (h : body.length = dlen.toNat + flen.toNat) (hb : ∃ b ∈ body.drop dlen.toNat, 0x01 < b.toNat) :
    decode (0x01#8 :: dlen :: flen :: body) = .error .errFormat := by
  rw [decode_push, decodePush_cons, if_neg (not_not.2 h), if_pos (by simpa using hb)]

/-- A push frame with none of the causes of ERR_FORMAT carries `dlen` data bytes and `flen` flags
(R63, R69). -/
theorem exists_decode_push {dlen flen : Byte} {body : Frame}
    (h : body.length = dlen.toNat + flen.toNat) (hb : ∀ b ∈ body.drop dlen.toNat, b.toNat ≤ 0x01) :
    ∃ data flags, decode (0x01#8 :: dlen :: flen :: body) = .ok (.pushC1 data flags) ∧
      data.length = dlen.toNat ∧ flags.length = flen.toNat := by
  have hdec : decode (0x01#8 :: dlen :: flen :: body) =
      .ok (.pushC1 (body.take dlen.toNat) ((body.drop dlen.toNat).map (· == 0x01#8))) := by
    rw [decode_push, decodePush_cons, if_neg (not_not.2 h), if_neg (by simpa using hb)]
  exact ⟨_, _, hdec, by simp [h], by simp [h]⟩

end Sys2Proof

namespace Sys2Proof.Machine

/-! ### The status of a frame -/

theorem wellSized_pushC1_eq_false_iff {n : Nat} {data : List Byte} {flags : List Bool} :
    (Instr.pushC1 data flags).wellSized n = false ↔ data.length ≠ n ∨ flags.length ≠ n := by
  rw [← Bool.not_eq_true, wellSized_pushC1_iff, not_and_or]

/-- A push that is not well-sized is refused for its length before anything else is asked (R207). -/
theorem exec_pushC1_of_not_wellSized {data : List Byte} {flags : List Bool} {s : State}
    (h : data.length ≠ s.cfg.nSym ∨ flags.length ≠ s.cfg.nSym) :
    exec (.pushC1 data flags) s = .next (s.reply ⟨.errLength, .none⟩) := by
  have hw := wellSized_pushC1_eq_false_iff.2 h
  rw [exec_refused (by simp [accepts, hw]), refusal, if_pos hw]

/-- The status a command is answered with once its frame has been decoded. -/
def execStatus (i : Instr) (s : State) : Status :=
  if accepts i s then .ok else refusal i s

/-- The status a frame is answered with. -/
def frameStatus (F : Frame) (s : State) : Status :=
  match decode F with
  | .error st => st
  | .ok i => execStatus i s

theorem frameStatus_of_error {F : Frame} {st : Status} (s : State) (h : decode F = .error st) :
    frameStatus F s = st := by simp [frameStatus, h]

theorem frameStatus_of_ok {F : Frame} {i : Instr} (s : State) (h : decode F = .ok i) :
    frameStatus F s = execStatus i s := by simp [frameStatus, h]

theorem exec_answers (i : Instr) (s : State) :
    ∃ t r, exec i s = .next t ∧ t.outbox = s.outbox ++ [r] ∧ r.status = execStatus i s := by
  cases ha : accepts i s with
  | true => exact ⟨_, ⟨.ok, answer i s⟩, exec_accepted ha, by simp, by simp [execStatus, ha]⟩
  | false => exact ⟨_, _, exec_refused ha, rfl, by simp [execStatus, ha]⟩

/-- `frameStatus` is what the model answers: one response, with that status (R60, R207). -/
theorem command_answers (F : Frame) (s : State) :
    ∃ t r, command F s = .next t ∧ t.outbox = s.outbox ++ [r] ∧ r.status = frameStatus F s := by
  cases hd : decode F with
  | error st => exact ⟨_, _, command_of_error s hd, rfl, (frameStatus_of_error s hd).symm⟩
  | ok i => rw [command_of_ok s hd, frameStatus_of_ok s hd]; exact exec_answers i s

/-- A push: ERR_LENGTH, then ERR_STATE, then ERR_FULL for a primed bank without room (R161). -/
theorem execStatus_pushC1 (data : List Byte) (flags : List Bool) (s : State) :
    execStatus (.pushC1 data flags) s =
      if data.length ≠ s.cfg.nSym ∨ flags.length ≠ s.cfg.nSym then .errLength
      else if s.phase = .flushed then .errState
      else if s.fill = s.cfg.dmax ∧ s.room s.cfg.nSym = false then .errFull
      else .ok := by
  simp only [← wellSized_pushC1_eq_false_iff]
  split
  case isTrue hw => simp [execStatus, accepts, refusal, hw]
  case isFalse hw =>
    rw [Bool.not_eq_false] at hw
    cases hp : s.phase with
    | flushed => simp [execStatus, accepts, refusal, hw, hp]
    | run =>
      by_cases hf : s.fill = s.cfg.dmax <;> cases hr : s.room s.cfg.nSym <;>
        simp [execStatus, accepts, refusal, State.primed, hw, hp, hf, hr]

/-- A format Z command is refused only as a flush without room (R185, R206 b). -/
theorem execStatus_formatZ {op : Byte} {i : Instr} (s : State) (h : formatZ op = some i) :
    execStatus i s =
      if op = 0x04#8 ∧ s.room (s.fill * s.cfg.nSym) = false then .errFull else .ok := by
  obtain rfl := opcode_of_formatZ h
  cases i with
  | pushC1 data flags => simp [formatZ, Instr.opcode] at h
  | flush => cases hr : s.room (s.fill * s.cfg.nSym) <;>
      simp [execStatus, accepts, refusal, Instr.opcode, hr]
  | pullData => rfl
  | pullErr => rfl
  | resetStats => rfl
  | getStats => rfl
  | reportStatus => rfl
  | reset => rfl

/-- The status of a frame of at least three bytes with opcode `0x01` (R207). -/
theorem frameStatus_push (dlen flen : Byte) (body : Frame) (s : State) :
    frameStatus (0x01#8 :: dlen :: flen :: body) s =
      if body.length ≠ dlen.toNat + flen.toNat ∨ ∃ b ∈ body.drop dlen.toNat, 0x01 < b.toNat then
        .errFormat
      else if dlen.toNat ≠ s.cfg.nSym ∨ flen.toNat ≠ s.cfg.nSym then .errLength
      else if s.phase = .flushed then .errState
      else if s.fill = s.cfg.dmax ∧ s.room s.cfg.nSym = false then .errFull
      else .ok := by
  split
  case isTrue h =>
    by_cases hlen : body.length = dlen.toNat + flen.toNat
    · exact frameStatus_of_error s (decode_push_of_reserved hlen (h.resolve_left (not_not.2 hlen)))
    · exact frameStatus_of_error s (decode_push_of_length_ne hlen)
  case isFalse h =>
    push Not at h
    obtain ⟨data, flags, hdec, hd, hf⟩ := exists_decode_push h.1 h.2
    rw [frameStatus_of_ok s hdec, execStatus_pushC1, hd, hf]

/-- The status of a frame whose first byte is a format Z opcode (R207). -/
theorem frameStatus_formatZ {op : Byte} {i : Instr} (rest : Frame) (s : State)
    (h : formatZ op = some i) :
    frameStatus (op :: rest) s =
      if rest ≠ [] then .errFormat
      else if op = 0x04#8 ∧ s.room (s.fill * s.cfg.nSym) = false then .errFull
      else .ok := by
  have hdec := decode_formatZ rest h
  split
  case isTrue hrest => rw [if_neg hrest] at hdec; exact frameStatus_of_error s hdec
  case isFalse hrest =>
    rw [if_pos (not_not.1 hrest)] at hdec
    rw [frameStatus_of_ok s hdec, execStatus_formatZ s h]

/-! ### No command reads the response stream -/

@[simp] theorem accepts_reply (i : Instr) (r : Response) (s : State) :
    accepts i (s.reply r) = accepts i s := by cases i <;> rfl

@[simp] theorem refusal_reply (i : Instr) (r : Response) (s : State) :
    refusal i (s.reply r) = refusal i s := by cases i <;> rfl

@[simp] theorem answer_reply (i : Instr) (r : Response) (s : State) :
    answer i (s.reply r) = answer i s := by cases i <;> rfl

/-- The effect of a command is the same whatever was answered before it. -/
theorem performed_reply (i : Instr) (r : Response) (s : State) :
    performed i (s.reply r) = (performed i s).reply r := by
  cases i with
  | pushC1 data flags =>
    unfold performed
    rw [State.reply_primed]
    cases s.primed <;> rfl
  | flush =>
    simp only [performed, State.flushAll_eq]
    rfl
  | pullData => rfl
  | pullErr => rfl
  | resetStats => rfl
  | getStats => rfl
  | reportStatus => rfl
  | reset => rfl

theorem exec_after_reply (i : Instr) (s : State) :
    ∃ (v : State) (r' : Response), v.outbox = s.outbox ∧ exec i s = .next (v.reply r') ∧
      ∀ r, exec i (s.reply r) = .next ((v.reply r).reply r') := by
  cases ha : accepts i s with
  | true =>
    refine ⟨performed i s, ⟨.ok, answer i s⟩, performed_outbox i s, exec_accepted ha, fun r => ?_⟩
    rw [exec_accepted (by simpa using ha), performed_reply, answer_reply]
  | false =>
    refine ⟨s, ⟨refusal i s, .none⟩, rfl, exec_refused ha, fun r => ?_⟩
    rw [exec_refused (by simpa using ha), refusal_reply]

/-- A frame has the same effect `v` and the same response `r'` whatever was answered before it. -/
theorem command_after_reply (F : Frame) (s : State) :
    ∃ (v : State) (r' : Response), v.outbox = s.outbox ∧ command F s = .next (v.reply r') ∧
      ∀ r, command F (s.reply r) = .next ((v.reply r).reply r') := by
  cases hd : decode F with
  | ok i => simpa only [command_of_ok _ hd] using exec_after_reply i s
  | error st =>
    exact ⟨s, ⟨st, .none⟩, rfl, command_of_error s hd, fun r => command_of_error (s.reply r) hd⟩

end Sys2Proof.Machine

namespace Sys2Proof

open Machine

/-- Settles O10: an illegal byte is no format Z opcode and not `0x01`, and the decoder's status is
the whole answer. -/
theorem illegalOpcodeRefused : Obligations.IllegalOpcodeRefused := by
  intro op rest s hop
  have hpush : op ≠ 0x01#8 := by rintro rfl; simp at hop
  exact command_of_error s
    (decode_illegal rest hpush ((formatZ_eq_none_iff_illegal hpush).2 hop))

/-- Settles O11: each cause is one the decoder answers with ERR_FORMAT. -/
theorem malformedFrameRefused : Obligations.MalformedFrameRefused := by
  intro s
  refine ⟨command_of_error s decode_nil, fun op rest h2 h8 hrest => command_of_error s ?trailing,
    fun rest hrest => command_of_error s ?short,
    fun dlen flen body h => command_of_error s (decode_push_of_length_ne h),
    fun dlen flen body h hb => command_of_error s (decode_push_of_reserved h hb)⟩
  case trailing =>
    obtain ⟨i, hi⟩ := exists_formatZ_eq_some h2 h8
    rw [decode_formatZ rest hi, if_neg hrest]
  case short => rw [decode_push, decodePush_short hrest]

/-- Settles O12: the frame decodes to a push of `dlen` bytes and `flen` flags, and its length is
the first thing the push is refused for. -/
theorem wrongLengthRefused : Obligations.WrongLengthRefused := by
  intro s dlen flen body hlen hflags hn
  obtain ⟨data, flags, hdec, hd, hf⟩ := exists_decode_push hlen hflags
  rw [command_of_ok s hdec, exec_pushC1_of_not_wellSized (by rwa [hd, hf])]
  rfl

/-- Settles O13: no push is accepted in `FLUSHED`, and a well-sized one is refused for the phase. -/
theorem pushAfterFlushRefused : Obligations.PushAfterFlushRefused := by
  intro s data flags hd hf hp
  rw [exec_refused (accepts_pushC1_of_flushed data flags hp),
    refusal_pushC1_of_flushed (wellSized_pushC1_iff.2 ⟨hd, hf⟩) hp]
  rfl

/-- Settles O16: `frameStatus` is the status answered, and it is read off for each class of frame:
empty, push (short, of another length, with a reserved flag, well-formed) and any other opcode. -/
theorem statusByPriority : Obligations.StatusByPriority := by
  intro F s
  obtain ⟨t, r, hc, ho, hr⟩ := command_answers F s
  refine ⟨t, r, hc, ho, hr.trans ?_⟩
  match F with
  | [] => rfl
  | op :: rest =>
    by_cases hpush : op = 0x01#8
    · subst hpush
      match rest with
      | [] => rfl
      | [_] => rfl
      | dlen :: flen :: body =>
        rw [frameStatus_push]
        have hlong : ¬ body.length + 1 + 1 + 1 < 3 := by omega
        have hlen : body.length + 1 + 1 + 1 = dlen.toNat + 3 + flen.toNat ↔
            body.length = dlen.toNat + flen.toNat := by omega
        simp [hlong, hlen, Nat.add_comm 3]
    · have hill := formatZ_eq_none_iff_illegal hpush
      cases hz : formatZ op with
      | none =>
        rw [frameStatus_of_error s (decode_illegal rest hpush hz)]
        simp [hill.1 hz]
      | some i =>
        have hlegal : ¬ (op = 0x00#8 ∨ 0x09 ≤ op.toNat) := by simp [← hill, hz]
        rw [frameStatus_formatZ rest s hz]
        simp [hlegal, hpush]

/-- Settles O17: a response with a non-zero status comes from a refusal, which only answers; and
by `command_after_reply` the next frame does not notice the answer. -/
theorem refusedCommandChangesNothing : Obligations.RefusedCommandChangesNothing := by
  intro F s t r hc ho hr
  obtain ⟨hpay, rfl⟩ : r.payload = .none ∧ t = s.reply r := by
    rcases command_cases hc with ⟨i, -, -, rfl⟩ | ⟨st, -, rfl⟩
    · obtain rfl : (⟨.ok, answer i s⟩ : Response) = r := by simpa using ho
      exact absurd rfl hr
    · obtain rfl : (⟨st, .none⟩ : Response) = r := by simpa using ho
      exact ⟨rfl, rfl⟩
  refine ⟨hpay, rfl, fun G u hu => ?_⟩
  obtain ⟨v, r', hv, hG, hafter⟩ := command_after_reply G s
  obtain rfl := Host.Outcome.next.inj (hG.symm.trans hu)
  refine ⟨r', by rw [State.reply_outbox, hv], ?_⟩
  rw [hafter r, State.reply_outbox, ← hv]
  rfl

end Sys2Proof
end

section
/-! GF(2^8) as a ring and, under a primitive polynomial, as a field of Mathlib, and the coefficient
lists as its polynomials (spec/40_gf_arithmetic.md R97 to R100).  The proofs about the decoder are
carried out there: `GfModel P φ` says that `φ` takes the bytes one to one onto a ring, `gfAdd` to
its sum and `gfMul P` to its product. -/

namespace Sys2Proof.Machine

open Polynomial

/-! ### The ring of bytes -/

/-- `φ` carries the bytes, under `gfAdd` and `gfMul P`, one to one onto the ring `R`. -/
structure GfModel (P : Poly9) {R : Type} [CommRing R] (φ : Byte → R) : Prop where
  map_xor : ∀ a b, φ (a ^^^ b) = φ a + φ b
  map_mul : ∀ a b, φ (gfMul P a b) = φ a * φ b
  map_one : φ 1#8 = 1
  bijective : Function.Bijective φ

/-- A byte as an element of the ring with product `gfMul P`: a type of its own, since `Byte` is
already a ring under the operations of `BitVec`. -/
@[ext] structure GfElem (P : Poly9) where
  byte : Byte

theorem GfElem.mk_bijective (P : Poly9) : Function.Bijective (GfElem.mk (P := P)) :=
  ⟨fun _ _ h => congrArg GfElem.byte h, fun a => ⟨a.byte, rfl⟩⟩

/-- The bytes under `gfAdd` and `gfMul P` are a commutative ring, whatever `P` (R100). -/
abbrev gfRing (P : Poly9) : CommRing (GfElem P) :=
  letI : Add (GfElem P) := ⟨fun a b => ⟨gfAdd a.byte b.byte⟩⟩
  letI : Mul (GfElem P) := ⟨fun a b => ⟨gfMul P a.byte b.byte⟩⟩
  letI : Neg (GfElem P) := ⟨id⟩
  letI : Zero (GfElem P) := ⟨⟨0#8⟩⟩
  letI : One (GfElem P) := ⟨⟨1#8⟩⟩
  CommRing.ofMinimalAxioms
    (fun _ _ _ => GfElem.ext (BitVec.xor_assoc ..))
    (fun _ => GfElem.ext BitVec.zero_xor)
    (fun _ => GfElem.ext BitVec.xor_self)
    (fun _ _ _ => GfElem.ext (gfMul_assoc ..))
    (fun _ _ => GfElem.ext (gfMul_comm ..))
    (fun _ => GfElem.ext (gfMul_one_left ..))
    (fun _ _ _ => GfElem.ext (gfMul_xor_right ..))

theorem exists_gfModel (P : Poly9) :
    ∃ (R : Type) (_ : CommRing R) (φ : Byte → R), GfModel P φ :=
  let _ := gfRing P
  ⟨GfElem P, gfRing P, GfElem.mk, fun _ _ => rfl, fun _ _ => rfl, rfl,
    GfElem.mk_bijective P⟩

theorem gfRing_isField {P : Poly9} (h : primitive P = true) :
    @IsField (GfElem P) (gfRing P).toSemiring :=
  let _ := gfRing P
  { exists_pair_ne := ⟨⟨0#8⟩, ⟨1#8⟩, by simp⟩
    mul_comm := mul_comm
    mul_inv_cancel := fun {a} ha => by
      have hbyte : a.byte ≠ 0#8 := fun h0 => ha (GfElem.ext h0)
      exact ⟨⟨gfInv P a.byte hbyte⟩, GfElem.ext (gfMul_gfInv h hbyte)⟩ }

/-- Under a primitive polynomial the bytes are a field (R100). -/
theorem exists_gfModel_field {P : Poly9} (h : primitive P = true) :
    ∃ (K : Type) (_ : Field K) (φ : Byte → K), GfModel P φ :=
  let _ := gfRing P
  ⟨GfElem P, (gfRing_isField h).toField, GfElem.mk, fun _ _ => rfl, fun _ _ => rfl, rfl,
    GfElem.mk_bijective P⟩

namespace GfModel

variable {P : Poly9} {R : Type} [CommRing R] {φ : Byte → R}

theorem map_zero (hφ : GfModel P φ) : φ 0#8 = 0 := by
  simpa using hφ.map_xor 0#8 0#8

theorem injective (hφ : GfModel P φ) : Function.Injective φ := hφ.bijective.1

theorem map_eq_zero_iff (hφ : GfModel P φ) {a : Byte} : φ a = 0 ↔ a = 0#8 := by
  rw [← hφ.map_zero, hφ.injective.eq_iff]

/-- The ring has characteristic two (R91). -/
theorem add_self (hφ : GfModel P φ) (x : R) : x + x = 0 := by
  have hone : (1 : R) + 1 = 0 := by
    rw [← hφ.map_one, ← hφ.map_xor, BitVec.xor_self, hφ.map_zero]
  rw [← mul_one x, ← mul_add, hone, mul_zero]

theorem neg_eq (hφ : GfModel P φ) (x : R) : -x = x :=
  neg_eq_of_add_eq_zero_left (hφ.add_self x)

theorem map_pow (hφ : GfModel P φ) (a : Byte) (e : Nat) : φ (gfPow P a e) = φ a ^ e := by
  induction e with
  | zero => rw [gfPow_zero, hφ.map_one, pow_zero]
  | succ e ih => rw [gfPow_succ, hφ.map_mul, ih, pow_succ]

theorem map_gfSum_range (hφ : GfModel P φ) (f : Nat → Byte) (n : Nat) :
    φ (gfSum ((List.range n).map f)) = ∑ i ∈ Finset.range n, φ (f i) := by
  induction n with
  | zero => exact hφ.map_zero
  | succ n ih =>
    rw [List.range_succ, List.map_append, gfSum_append, hφ.map_xor, ih, Finset.sum_range_succ]
    simp

end GfModel

/-! ### Coefficient lists as polynomials -/

/-- The polynomial with the listed coefficients, index = degree (R11). -/
noncomputable def toPoly {R : Type} [CommRing R] (φ : Byte → R) : List Byte → R[X]
  | [] => 0
  | a :: p => C (φ a) + X * toPoly φ p

namespace GfModel

variable {P : Poly9} {R : Type} [CommRing R] {φ : Byte → R}

theorem toPoly_coeff (hφ : GfModel P φ) (p : List Byte) (t : Nat) :
    (toPoly φ p).coeff t = φ (p.getD t 0#8) := by
  induction p generalizing t with
  | nil => simp [toPoly, hφ.map_zero]
  | cons a p ih =>
    cases t with
    | zero => simp [toPoly]
    | succ t => simp [toPoly, coeff_X_mul, ih]

/-- `PEVAL` is evaluation (R97). -/
theorem map_polyEval (hφ : GfModel P φ) (p : List Byte) (x : Byte) :
    φ (polyEval P p x) = (toPoly φ p).eval (φ x) := by
  induction p with
  | nil => simp [toPoly, hφ.map_zero]
  | cons a p ih => simp [toPoly, hφ.map_xor, hφ.map_mul, ih, add_comm, mul_comm]

theorem map_polyCoeff (hφ : GfModel P φ) (p q : List Byte) (t : Nat) :
    φ (polyCoeff P p q t) = (toPoly φ p * toPoly φ q).coeff t := by
  rw [polyCoeff, hφ.map_gfSum_range, coeff_mul,
    Finset.Nat.sum_antidiagonal_eq_sum_range_succ
      (fun l s => (toPoly φ p).coeff l * (toPoly φ q).coeff s)]
  simp only [hφ.toPoly_coeff, hφ.map_mul]

end GfModel

/-- A product has no coefficient beyond the sum of the degrees (R98). -/
theorem polyCoeff_eq_zero (P : Poly9) {p q : List Byte} {t : Nat}
    (h : p.length + q.length - 1 ≤ t) : polyCoeff P p q t = 0#8 := by
  obtain ⟨R, _, φ, hφ⟩ := exists_gfModel P
  rw [← hφ.map_eq_zero_iff, polyCoeff, hφ.map_gfSum_range]
  refine Finset.sum_eq_zero fun l hl => ?_
  rw [Finset.mem_range] at hl
  have hout : p.length ≤ l ∨ q.length ≤ t - l := by omega
  rcases hout with hp | hq
  · rw [List.getD_eq_default _ _ hp, gfMul_zero_left, hφ.map_zero]
  · rw [List.getD_eq_default _ _ hq, gfMul_zero_right, hφ.map_zero]

theorem getD_map_range_eq_ite {α : Type} (n t : Nat) (f : Nat → α) (d : α) :
    ((List.range n).map f).getD t d = if t < n then f t else d := by
  split
  · exact getD_map_range n t f d ‹_›
  · exact List.getD_eq_default _ _ (by simpa using not_lt.1 ‹_›)

theorem polyMul_getD (P : Poly9) (p q : List Byte) (t : Nat) :
    (polyMul P p q).getD t 0#8 = polyCoeff P p q t := by
  rw [polyMul, getD_map_range_eq_ite, ite_eq_left_iff]
  exact fun h => (polyCoeff_eq_zero P (not_lt.1 h)).symm

@[simp] theorem polyMul_length (P : Poly9) (p q : List Byte) :
    (polyMul P p q).length = p.length + q.length - 1 := by simp [polyMul]

theorem polyMulMod_getD (P : Poly9) (p q : List Byte) (m t : Nat) :
    (polyMulMod P p q m).getD t 0#8 = if t < m then polyCoeff P p q t else 0#8 :=
  getD_map_range_eq_ite ..

namespace GfModel

variable {P : Poly9} {R : Type} [CommRing R] {φ : Byte → R}

/-- `PMUL` is multiplication (R98). -/
theorem toPoly_polyMul (hφ : GfModel P φ) (p q : List Byte) :
    toPoly φ (polyMul P p q) = toPoly φ p * toPoly φ q := by
  ext t
  rw [hφ.toPoly_coeff, polyMul_getD, hφ.map_polyCoeff]

end GfModel

end Sys2Proof.Machine

namespace Sys2Proof

open Machine

/-- Settles O43: as polynomials over the ring of bytes `PMUL` is multiplication and `PEVAL`
evaluation. -/
theorem productOfPolynomials : Obligations.ProductOfPolynomials := by
  intro P p q
  refine ⟨fun x => ?_, polyMul_length P p q, fun m => ⟨by simp [polyMulMod], fun t ht => ?_⟩⟩
  · obtain ⟨R, _, φ, hφ⟩ := exists_gfModel P
    apply hφ.injective
    rw [hφ.map_mul, hφ.map_polyEval, hφ.map_polyEval, hφ.map_polyEval, hφ.toPoly_polyMul,
      Polynomial.eval_mul]
  · rw [polyMulMod_getD, if_pos ht, polyMul_getD]

end Sys2Proof
end

section
/-! The algebra behind `RSDEC` over any field (spec/41_rs_decoder.md R114 to R122).  For positions
`D` with distinct non-zero locators `x` and weights `B`, the syndromes are the power sums of `B`, and
modulo `x^r` their polynomial times the locator polynomial of `D` is a polynomial of degree below
`|D|`, the evaluator, whose value at the inverse of a locator gives back the weight.  The distance
of the code, Forney's formula and the shape of the modified syndromes all follow from that. -/

namespace Sys2Proof.Machine

open Polynomial

variable {K : Type} [Field K] (x B : ℕ → K)

/-- The locator polynomial of the positions `D`: the product of `1 - x[i] X` (R116). -/
noncomputable def locPoly (D : Finset ℕ) : K[X] := ∏ i ∈ D, (1 - C (x i) * X)

/-- The evaluator of the weights `B` at the positions `D` (R121). -/
noncomputable def evaluator (D : Finset ℕ) : K[X] := ∑ i ∈ D, C (B i) * locPoly x (D.erase i)

variable {x B} {D : Finset ℕ}

theorem locPoly_eq_mul_erase {i : ℕ} (hi : i ∈ D) :
    locPoly x D = (1 - C (x i) * X) * locPoly x (D.erase i) :=
  (Finset.mul_prod_erase D _ hi).symm

theorem natDegree_locPoly_le (x : ℕ → K) (D : Finset ℕ) : (locPoly x D).natDegree ≤ D.card := by
  have hone : ∀ i ∈ D, (1 - C (x i) * X : K[X]).natDegree ≤ 1 := by
    intro i _
    compute_degree
  calc (locPoly x D).natDegree ≤ ∑ i ∈ D, (1 - C (x i) * X : K[X]).natDegree :=
        natDegree_prod_le ..
    _ ≤ ∑ _i ∈ D, 1 := Finset.sum_le_sum hone
    _ = D.card := by simp

theorem evaluator_coeff_eq_zero {t : ℕ} (ht : D.card ≤ t) : (evaluator x B D).coeff t = 0 := by
  rw [evaluator, finsetSum_coeff]
  refine Finset.sum_eq_zero fun i hi => ?_
  have hdeg := natDegree_locPoly_le x (D.erase i)
  have hcard := Finset.card_erase_lt_of_mem hi
  rw [coeff_C_mul, coeff_eq_zero_of_natDegree_lt (by omega), mul_zero]

/-! ### Values at the inverse of a locator -/

section Values

variable {i : ℕ} {z : K} (hx : Set.InjOn x D) (hi : i ∈ D) (hz : x i * z = 1)
include hi hz

theorem eval_evaluator :
    (evaluator x B D).eval z = B i * (locPoly x (D.erase i)).eval z := by
  rw [evaluator, eval_finsetSum, Finset.sum_eq_single_of_mem i hi]
  · simp
  · intro k _ hki
    rw [locPoly_eq_mul_erase (Finset.mem_erase.2 ⟨hki.symm, hi⟩)]
    simp [hz]

theorem eval_derivative_locPoly :
    (derivative (locPoly x D)).eval z = -(x i * (locPoly x (D.erase i)).eval z) := by
  rw [locPoly_eq_mul_erase hi, derivative_mul]
  simp [hz]

include hx in
theorem eval_locPoly_erase_ne_zero : (locPoly x (D.erase i)).eval z ≠ 0 := by
  rw [locPoly, eval_prod, Finset.prod_ne_zero_iff]
  intro k hk hzero
  obtain ⟨hki, hkD⟩ := Finset.mem_erase.1 hk
  have hkz : x k * z = 1 := (sub_eq_zero.1 (by simpa using hzero)).symm
  have hz0 : z ≠ 0 := right_ne_zero_of_mul_eq_one hz
  exact hki (hx hkD hi (mul_right_cancel₀ hz0 (hkz.trans hz.symm)))

end Values

/-! ### The key equation -/

/-- Coefficients of a product below `r` depend on those below `r` alone. -/
theorem coeff_mul_congr_of_lt {p p' q : K[X]} {r : ℕ} (h : ∀ j < r, p.coeff j = p'.coeff j) :
    ∀ t < r, (p * q).coeff t = (p' * q).coeff t := by
  intro t ht
  rw [coeff_mul, coeff_mul]
  refine Finset.sum_congr rfl fun l hl => ?_
  rw [h l.1 (by have := Finset.Nat.antidiagonal.fst_lt hl; omega)]

/-- The polynomial of the power sums of `B` below `r`. -/
noncomputable def powerSums (x B : ℕ → K) (D : Finset ℕ) (r : ℕ) : K[X] :=
  ∑ i ∈ D, C (B i) * ∑ j ∈ Finset.range r, (C (x i) * X) ^ j

theorem powerSums_coeff {r j : ℕ} (hj : j < r) :
    (powerSums x B D r).coeff j = ∑ i ∈ D, B i * x i ^ j := by
  simp only [powerSums, finsetSum_coeff, coeff_C_mul, mul_pow, ← C_pow, coeff_X_pow]
  simp [hj]

/-- The key equation modulo `x^r`: power sums times locator is the evaluator (R121). -/
theorem key_equation {S : K[X]} {r : ℕ} (hS : ∀ j < r, S.coeff j = ∑ i ∈ D, B i * x i ^ j) :
    ∀ t < r, (S * locPoly x D).coeff t = (evaluator x B D).coeff t := by
  intro t ht
  have hcut : ∀ i ∈ D, (C (B i) * ∑ j ∈ Finset.range r, (C (x i) * X) ^ j) * locPoly x D
      = C (B i) * locPoly x (D.erase i)
        - C (B i * x i ^ r) * locPoly x (D.erase i) * X ^ r := by
    intro i hi
    rw [locPoly_eq_mul_erase hi, mul_assoc, ← mul_assoc (∑ j ∈ _, _), geom_sum_mul_neg, mul_pow,
      C_mul, C_pow]
    ring
  rw [coeff_mul_congr_of_lt (fun j hj => (hS j hj).trans (powerSums_coeff hj).symm) t ht,
    powerSums, Finset.sum_mul, Finset.sum_congr rfl hcut, Finset.sum_sub_distrib, coeff_sub,
    ← Finset.sum_mul, coeff_mul_X_pow', if_neg (not_le.2 ht), sub_zero, evaluator]

/-- At most `r` weights at distinct non-zero locators are zero when their first `r` power sums
are: the Vandermonde argument behind the distance of the code (R127). -/
theorem weights_eq_zero_of_powerSums {r : ℕ} (hx : Set.InjOn x D) (hx0 : ∀ i ∈ D, x i ≠ 0)
    (hD : D.card ≤ r) (hS : ∀ j < r, ∑ i ∈ D, B i * x i ^ j = 0) : ∀ i ∈ D, B i = 0 := by
  intro i hi
  have hz : x i * (x i)⁻¹ = 1 := mul_inv_cancel₀ (hx0 i hi)
  have hev : evaluator x B D = 0 := by
    ext t
    rcases lt_or_ge t r with ht | ht
    · rw [← key_equation (S := 0) (fun j hj => by rw [coeff_zero, hS j hj]) t ht, zero_mul]
    · rw [evaluator_coeff_eq_zero (hD.trans ht), coeff_zero]
  have hval := eval_evaluator (B := B) hi hz
  rw [hev, eval_zero, eq_comm, mul_eq_zero] at hval
  exact hval.resolve_right (eval_locPoly_erase_ne_zero hx hi hz)

/-- The power sums below `r` of weights at the positions `D`, as a linear map of the weights. -/
def powerSumMap (x : ℕ → K) (D : Finset ℕ) (r : ℕ) : (D → K) →ₗ[K] (Fin r → K) where
  toFun b j := ∑ i : D, b i * x i ^ (j : ℕ)
  map_add' a b := by funext j; simp [add_mul, Finset.sum_add_distrib]
  map_smul' k b := by funext j; simp [mul_assoc, Finset.mul_sum]

/-- Any `r` values are the power sums of some weights at `r` distinct non-zero locators: the map
from the weights is injective and the dimensions agree (R129). -/
theorem exists_weights {r : ℕ} (hx : Set.InjOn x D) (hx0 : ∀ i ∈ D, x i ≠ 0) (hD : D.card = r)
    (S : ℕ → K) : ∃ B : ℕ → K, ∀ j < r, ∑ i ∈ D, B i * x i ^ j = S j := by
  have hsum : ∀ (b : D → K) (j : ℕ), ∑ i ∈ D, Function.extend Subtype.val b 0 i * x i ^ j =
      ∑ i : D, b i * x i ^ j := fun b j => by
    rw [← Finset.sum_coe_sort]
    simp
  have hinj : Function.Injective (powerSumMap x D r) := by
    rw [← LinearMap.ker_eq_bot, LinearMap.ker_eq_bot']
    intro b hb
    funext i
    rw [← Subtype.val_injective.extend_apply b 0 i]
    refine weights_eq_zero_of_powerSums hx hx0 hD.le (fun j hj => ?_) i i.2
    rw [hsum]
    exact congrFun hb ⟨j, hj⟩
  obtain ⟨b, hb⟩ := (LinearMap.injective_iff_surjective_of_finrank_eq_finrank (by simp [hD])).1 hinj
    fun j => S j
  exact ⟨Function.extend Subtype.val b 0, fun j hj => by rw [hsum]; exact congrFun hb ⟨j, hj⟩⟩

/-- Forney's formula: the evaluator over the derivative of the locator polynomial, at the inverse
of a locator, is the weight up to the locator and the sign (R122). -/
theorem evaluator_div_derivative {i : ℕ} {z : K} (hx : Set.InjOn x D) (hi : i ∈ D)
    (hz : x i * z = 1) :
    (derivative (locPoly x D)).eval z ≠ 0 ∧
      (evaluator x B D).eval z / (derivative (locPoly x D)).eval z = -(B i * z) := by
  have hne := eval_locPoly_erase_ne_zero hx hi hz
  have hxi : x i ≠ 0 := left_ne_zero_of_mul_eq_one hz
  rw [eval_derivative_locPoly hi hz, eval_evaluator hi hz]
  refine ⟨neg_ne_zero.2 (mul_ne_zero hxi hne), ?_⟩
  rw [div_neg, neg_inj, div_eq_iff (mul_ne_zero hxi hne)]
  calc B i * (locPoly x (D.erase i)).eval z
      = B i * (x i * z) * (locPoly x (D.erase i)).eval z := by rw [hz, mul_one]
    _ = B i * z * (x i * (locPoly x (D.erase i)).eval z) := by ring

/-! ### The modified syndromes -/

section Modified

variable {E : Finset ℕ} {S : K[X]} {r p : ℕ}

/-- With erasures alone nothing is left from coefficient `e` on (R117). -/
theorem modified_eq_zero (hS : ∀ j < r, S.coeff j = ∑ i ∈ E, B i * x i ^ j) {t : ℕ}
    (he : E.card ≤ t) (ht : t < r) : (S * locPoly x E).coeff t = 0 := by
  rw [key_equation hS t ht, evaluator_coeff_eq_zero he]

variable (hp : p ∉ E) (hS : ∀ j < r, S.coeff j = ∑ i ∈ insert p E, B i * x i ^ j)
include hp hS

theorem modified_recurrence {t : ℕ} (ht : t + 1 < r) :
    (S * locPoly x E).coeff (t + 1) =
      (evaluator x B (insert p E)).coeff (t + 1) + x p * (S * locPoly x E).coeff t := by
  have hloc : locPoly x (insert p E) = (1 - C (x p) * X) * locPoly x E :=
    Finset.prod_insert hp
  rw [← key_equation hS _ ht, hloc, mul_left_comm, sub_mul, one_mul, coeff_sub, mul_assoc,
    coeff_C_mul, coeff_X_mul, sub_add_cancel]

/-- With one error beside the erasures, from coefficient `e` on each is the one before times the
locator of the error (R117). -/
theorem modified_succ {t : ℕ} (he : E.card ≤ t) (ht : t + 1 < r) :
    (S * locPoly x E).coeff (t + 1) = x p * (S * locPoly x E).coeff t := by
  have hcard := Finset.card_insert_of_notMem hp
  rw [modified_recurrence hp hS ht, evaluator_coeff_eq_zero (by omega), zero_add]

/-- Summing the recurrence up to `t` leaves the coefficient at `t`. -/
theorem modified_telescope {z : K} (hz : x p * z = 1) (t : ℕ) (ht : t < r) :
    ∑ l ∈ Finset.range (t + 1), (evaluator x B (insert p E)).coeff l * z ^ l =
      (S * locPoly x E).coeff t * z ^ t := by
  induction t with
  | zero =>
    have hloc : locPoly x (insert p E) = (1 - C (x p) * X) * locPoly x E :=
      Finset.prod_insert hp
    rw [Finset.sum_range_one, ← key_equation hS 0 ht, hloc]
    simp [mul_coeff_zero]
  | succ t ih =>
    rw [Finset.sum_range_succ, ih (by omega), modified_recurrence hp hS ht]
    calc _ = (x p * z) * ((S * locPoly x E).coeff t * z ^ t) +
          (evaluator x B (insert p E)).coeff (t + 1) * z ^ (t + 1) := by rw [hz, one_mul]
      _ = _ := by ring

/-- The leading modified syndrome shows the error (R117). -/
theorem modified_ne_zero (hx : Set.InjOn x (insert p E : Finset ℕ)) (hxp : x p ≠ 0)
    (hBp : B p ≠ 0) (hr : E.card < r) : (S * locPoly x E).coeff E.card ≠ 0 := by
  have hz : x p * (x p)⁻¹ = 1 := mul_inv_cancel₀ hxp
  have hmem : p ∈ insert p E := Finset.mem_insert_self p E
  have hdeg : (evaluator x B (insert p E)).natDegree < E.card + 1 := by
    rw [Nat.lt_succ_iff, natDegree_le_iff_coeff_eq_zero]
    intro t ht
    exact evaluator_coeff_eq_zero (by rw [Finset.card_insert_of_notMem hp]; omega)
  have hval : (evaluator x B (insert p E)).eval (x p)⁻¹ ≠ 0 := by
    rw [eval_evaluator hmem hz]
    exact mul_ne_zero hBp (eval_locPoly_erase_ne_zero hx hmem hz)
  rw [eval_eq_sum_range' hdeg, modified_telescope hp hS hz _ hr] at hval
  exact left_ne_zero_of_mul hval

end Modified

end Sys2Proof.Machine
end

section
/-! Proofs about codewords (spec/41_rs_decoder.md R111, R112, R125, R127): a word is a codeword when
its syndromes vanish, and the code has distance at least `r + 1`. -/

namespace Sys2Proof.Machine

/-! ### The powers of `alpha` in a field -/

namespace GfModel

variable {P : Poly9} {K : Type} [Field K] {φ : Byte → K}

theorem map_alphaPow (hφ : GfModel P φ) (h : primitive P = true) (e : Nat) :
    φ (alphaPow P e) = φ alpha ^ e := by
  rw [alphaPow_eq_gfPow h, hφ.map_pow]

theorem map_alpha_ne_zero (hφ : GfModel P φ) : φ alpha ≠ 0 :=
  fun h0 => absurd (hφ.map_eq_zero_iff.1 h0) (by decide)

/-- Negative exponents too are powers in the field (R93). -/
theorem map_alphaPowInt (hφ : GfModel P φ) (h : primitive P = true) (e : Int) :
    φ (alphaPowInt P e) = φ alpha ^ e := by
  have hone : φ alpha ^ (255 : Int) = 1 := by
    exact_mod_cast (hφ.map_pow alpha 255).symm.trans
      ((congrArg φ (primitive_pow_255 h)).trans hφ.map_one)
  have hmod : ((e % 255).toNat : Int) = e % 255 := Int.toNat_of_nonneg (by omega)
  rw [alphaPowInt, hφ.map_pow, ← zpow_natCast, hmod]
  conv_rhs =>
    rw [← Int.mul_ediv_add_emod e 255, zpow_add₀ hφ.map_alpha_ne_zero, zpow_mul, hone, one_zpow,
      one_mul]

end GfModel

/-! ### Locators -/

/-- The locator of position `i` in the field (R111). -/
def loc {K : Type} (φ : Byte → K) (c : Config) (i : Nat) : K := φ (locator c i)

section Field

variable {K : Type} [Field K] {c : Config} {φ : Byte → K} (hφ : GfModel c.gfPoly φ)
  (hc : c.wf = true)
include hφ hc

theorem loc_eq_pow (i : Nat) : loc φ c i = φ alpha ^ (c.nSym - 1 - i) :=
  hφ.map_alphaPow (Config.wf_gfPoly hc) _

theorem loc_ne_zero (i : Nat) : loc φ c i ≠ 0 := by
  rw [loc_eq_pow hφ hc]
  exact pow_ne_zero _ hφ.map_alpha_ne_zero

/-- Positions of a codeword have distinct locators, since `n ≤ 255` (R111). -/
theorem loc_injOn : Set.InjOn (loc φ c) (Finset.range c.nSym) := by
  intro i hi k hk h
  rw [Finset.mem_coe, Finset.mem_range] at hi hk
  have hn := Config.wf_nSym hc
  have hexp : c.nSym - 1 - i = c.nSym - 1 - k :=
    alphaPow_injOn (Config.wf_gfPoly hc) (by simp; omega) (by simp; omega) (hφ.injective h)
  omega

theorem loc_mul_locatorInv (i : Nat) : loc φ c i * φ (locatorInv c i) = 1 := by
  rw [loc_eq_pow hφ hc, locatorInv, hφ.map_alphaPowInt (Config.wf_gfPoly hc), zpow_neg,
    zpow_natCast, mul_inv_cancel₀ (pow_ne_zero _ hφ.map_alpha_ne_zero)]

/-! ### Parity checks and syndromes -/

theorem map_paritySum (w : List Byte) (j : Nat) :
    φ (gfSum ((List.range c.nSym).map fun i =>
        gfMul c.gfPoly (w.getD i 0#8) (alphaPow c.gfPoly ((c.fcr + j) * (c.nSym - 1 - i))))) =
      ∑ i ∈ Finset.range c.nSym, φ (w.getD i 0#8) * loc φ c i ^ (c.fcr + j) := by
  rw [hφ.map_gfSum_range]
  refine Finset.sum_congr rfl fun i _ => ?_
  rw [hφ.map_mul, hφ.map_alphaPow (Config.wf_gfPoly hc), loc_eq_pow hφ hc, mul_comm (c.fcr + j),
    pow_mul]

end Field

/-- The syndromes of a word vanish exactly when it is a codeword (R111, R114, R115). -/
theorem allZero_syndromes_iff {c : Config} {w : List Byte} (hc : c.wf = true)
    (hw : w.length = c.nSym) : allZero (syndromes c w) = true ↔ IsCodeword c w := by
  obtain ⟨hlen, hsum⟩ := syndromeIsParitySum c w hc hw
  constructor
  · intro hz
    refine ⟨hw, fun j hj => ?_⟩
    rw [← hsum j hj, List.getD_eq_getElem _ _ (by rwa [hlen])]
    simpa using List.all_eq_true.1 hz _ (List.getElem_mem _)
  · rintro ⟨-, hzero⟩
    refine List.all_eq_true.2 fun x hx => ?_
    obtain ⟨j, hj, rfl⟩ := List.getElem_of_mem hx
    rw [hlen] at hj
    rw [← List.getD_eq_getElem _ 0#8, hsum j hj, hzero j hj]
    rfl

theorem rsDecode_eq_passed_iff {c : Config} {w v : List Byte} {E : List Nat} (hc : c.wf = true)
    (hw : w.length = c.nSym) : rsDecode c w E = .passed v ↔ v = w ∧ E = [] ∧ IsCodeword c w := by
  constructor
  · intro h
    obtain ⟨hv, hE, hz⟩ := rsDecode_passed h
    exact ⟨hv, hE, (allZero_syndromes_iff hc hw).1 hz⟩
  · rintro ⟨rfl, rfl, hcode⟩
    simp [rsDecode, (allZero_syndromes_iff hc hw).2 hcode]

/-! ### The distance of the code -/

/-- The positions where two words differ (R112). -/
def diffSet (c : Config) (w v : List Byte) : Finset ℕ :=
  (Finset.range c.nSym).filter fun i => w.getD i 0#8 ≠ v.getD i 0#8

theorem mem_diffSet {c : Config} {w v : List Byte} {i : Nat} :
    i ∈ diffSet c w v ↔ i < c.nSym ∧ w.getD i 0#8 ≠ v.getD i 0#8 := by
  simp [diffSet]

theorem diffSet_subset_range (c : Config) (w v : List Byte) :
    diffSet c w v ⊆ Finset.range c.nSym := Finset.filter_subset _ _

theorem errorCount_eq_card (c : Config) (E : List Nat) (w v : List Byte) :
    errorCount c E w v = (diffSet c w v \ E.toFinset).card := by
  rw [errorCount, ← List.toFinset_card_of_nodup (List.nodup_range.filter _)]
  congr 1
  ext i
  simp [mem_diffSet, and_comm, and_left_comm]

/-- Words of `n` bytes that differ at no position are equal. -/
theorem eq_of_diffSet_eq_empty {c : Config} {w v : List Byte} (hw : w.length = c.nSym)
    (hv : v.length = c.nSym) (h : diffSet c w v = ∅) : w = v := by
  refine List.ext_getElem (hw.trans hv.symm) fun i hi hi' => ?_
  have hnot : i ∉ diffSet c w v := by simp [h]
  rw [mem_diffSet, not_and, not_not] at hnot
  have hget := hnot (hw ▸ hi)
  rwa [List.getD_eq_getElem _ _ hi, List.getD_eq_getElem _ _ hi'] at hget

/-- The difference of two words at position `i`, weighted as the parity checks weight it. -/
def weight {K : Type} [Field K] (φ : Byte → K) (c : Config) (w v : List Byte) (i : Nat) : K :=
  φ (w.getD i 0#8 ^^^ v.getD i 0#8) * loc φ c i ^ c.fcr

section Weights

variable {K : Type} [Field K] {c : Config} {φ : Byte → K} (hφ : GfModel c.gfPoly φ)
  (hc : c.wf = true)
include hφ hc

theorem weight_ne_zero_iff {w v : List Byte} {i : Nat} :
    weight φ c w v i ≠ 0 ↔ w.getD i 0#8 ≠ v.getD i 0#8 := by
  rw [weight, mul_ne_zero_iff_right (pow_ne_zero _ (loc_ne_zero hφ hc i)), ne_eq,
    hφ.map_eq_zero_iff, BitVec.xor_eq_zero_iff]

/-- The syndromes of a word are the power sums of its differences from any codeword, over any set
of positions that holds them all (R114). -/
theorem map_syndrome_eq_powerSum {w v : List Byte} {D : Finset ℕ} (hw : w.length = c.nSym)
    (hv : IsCodeword c v) (hD : D ⊆ Finset.range c.nSym) (hdiff : diffSet c w v ⊆ D) {j : Nat}
    (hj : j < c.nPar) :
    φ ((syndromes c w).getD j 0#8) = ∑ i ∈ D, weight φ c w v i * loc φ c i ^ j := by
  have hzero : ∑ i ∈ Finset.range c.nSym, φ (v.getD i 0#8) * loc φ c i ^ (c.fcr + j) = 0 := by
    rw [← map_paritySum hφ hc, hv.2 j hj, hφ.map_zero]
  have hsame : ∀ i ∈ Finset.range c.nSym, i ∉ D → weight φ c w v i * loc φ c i ^ j = 0 := by
    intro i hi hiD
    have hnot : ¬ weight φ c w v i ≠ 0 := fun hne => hiD <| hdiff <| mem_diffSet.2
      ⟨Finset.mem_range.1 hi, (weight_ne_zero_iff hφ hc).1 hne⟩
    rw [not_not.1 hnot, zero_mul]
  rw [(syndromeIsParitySum c w hc hw).2 j hj, map_paritySum hφ hc, Finset.sum_subset hD hsame,
    ← add_zero (∑ i ∈ Finset.range c.nSym, φ _ * _), ← hzero, ← Finset.sum_add_distrib]
  refine Finset.sum_congr rfl fun i _ => ?_
  rw [weight, hφ.map_xor, pow_add]
  ring

end Weights

/-- Codewords that differ in at most `r` positions are equal (R127). -/
theorem codewords_eq_of_card_diffSet_le {c : Config} {v w : List Byte} (hc : c.wf = true)
    (hv : IsCodeword c v) (hw : IsCodeword c w) (h : (diffSet c v w).card ≤ c.nPar) : v = w := by
  obtain ⟨K, _, φ, hφ⟩ := exists_gfModel_field (Config.wf_gfPoly hc)
  have hsub := diffSet_subset_range c v w
  refine eq_of_diffSet_eq_empty hv.1 hw.1 (Finset.eq_empty_of_forall_notMem fun i hi => ?_)
  have hzero : ∀ j < c.nPar, ∑ k ∈ diffSet c v w, weight φ c v w k * loc φ c k ^ j = 0 := by
    intro j hj
    rw [← map_syndrome_eq_powerSum hφ hc hv.1 hw hsub subset_rfl hj,
      (syndromeIsParitySum c v hc hv.1).2 j hj, hv.2 j hj, hφ.map_zero]
  have hinj : Set.InjOn (loc φ c) (diffSet c v w) :=
    (loc_injOn hφ hc).mono (Finset.coe_subset.2 hsub)
  exact (weight_ne_zero_iff hφ hc).2 (mem_diffSet.1 hi).2
    (weights_eq_zero_of_powerSums hinj (fun k _ => loc_ne_zero hφ hc k) h hzero i hi)

/-- Where two words differ, one of them differs from a third, or the position is erased. -/
theorem diffSet_subset_union (c : Config) (E : List Nat) (w v v' : List Byte) :
    diffSet c v v' ⊆
      E.toFinset ∪ ((diffSet c w v \ E.toFinset) ∪ (diffSet c w v' \ E.toFinset)) := by
  intro i hi
  obtain ⟨hn, hne⟩ := mem_diffSet.1 hi
  simp only [Finset.mem_union, Finset.mem_sdiff, mem_diffSet]
  by_cases hE : i ∈ E.toFinset
  · exact .inl hE
  · by_cases hv : w.getD i 0#8 = v.getD i 0#8
    · exact .inr (.inr ⟨⟨hn, hv ▸ hne⟩, hE⟩)
    · exact .inr (.inl ⟨⟨hn, hv⟩, hE⟩)

/-- A received word is within capacity of one codeword at most (R127). -/
theorem codeword_unique_of_withinCapacity {c : Config} {w v v' : List Byte} {E : List Nat}
    (hc : c.wf = true) (hv : IsCodeword c v) (hv' : IsCodeword c v')
    (hcap : WithinCapacity c w E v) (hcap' : WithinCapacity c w E v') : v = v' := by
  refine codewords_eq_of_card_diffSet_le hc hv hv' ?_
  have hE := List.toFinset_card_le E
  unfold WithinCapacity at hcap hcap'
  rw [errorCount_eq_card] at hcap hcap'
  have hunion := (Finset.card_le_card (diffSet_subset_union c E w v v')).trans
    ((Finset.card_union_le _ _).trans (Nat.add_le_add_left (Finset.card_union_le _ _) _))
  omega

end Sys2Proof.Machine

namespace Sys2Proof

open Machine

/-- Settles O35: `RSDEC` passes a word when its syndromes vanish, which says that it is a
codeword. -/
theorem passedExactlyWhenClean : Obligations.PassedExactlyWhenClean :=
  fun _ _ _ _ hc hw => rsDecode_eq_passed_iff hc hw

/-- Settles O31: no flag, no erasure; and the word passes as a codeword. -/
theorem cleanCodewordPassesUnchanged : Obligations.CleanCodewordPassesUnchanged := by
  intro cfg tap hc hflags hcode
  have hnone : tapErasures tap = [] := by
    rw [← List.length_eq_zero_iff, tapErasures_length, List.length_eq_zero_iff,
      List.filter_eq_nil_iff]
    simpa using hflags
  have hlen : tap.length = cfg.nSym := (tapBytes_length tap).symm.trans hcode.1
  rw [emission_of_passed ((rsDecode_eq_passed_iff hc hcode.1).2 ⟨rfl, hnone, hcode⟩), hlen]

/-- Settles O37: codewords that differ in at most `r` positions are equal. -/
theorem codewordsFarApart : Obligations.CodewordsFarApart := by
  intro c v w hc hv hw hne
  rw [errorCount_eq_card, List.toFinset_nil, Finset.sdiff_empty]
  exact not_le.1 fun h => hne (codewords_eq_of_card_diffSet_le hc hv hw h)

/-- Settles O38: two codewords within capacity would differ in at most `e + t + t' ≤ r`
positions. -/
theorem codewordWithinCapacityUnique : Obligations.CodewordWithinCapacityUnique :=
  fun _ _ _ _ _ hc _ _ hv hv' hcap hcap' =>
    codeword_unique_of_withinCapacity hc hv hv' hcap hcap'

end Sys2Proof
end

section
/-! Proofs about what `RSDEC` corrects (spec/41_rs_decoder.md R117 to R123, R128): the correction
touches only erased and located positions, and the located ones are few enough for the capacity. -/

namespace Sys2Proof.Machine

/-- The locator that is accepted has a degree of at most half the modified syndromes (R118). -/
theorem two_mul_length_le_of_errorLocator {c : Config} {U lam : List Byte}
    (h : errorLocator c U = some lam) : 2 * (lam.length - 1) ≤ U.length := by
  unfold errorLocator at h
  dsimp only at h
  split at h
  · simp at h
  · split at h
    · simp at h
    · have hlen := congrArg List.length (Option.some.inj h)
      rw [List.length_take] at hlen
      omega

@[simp] theorem modifiedSyndromes_length (c : Config) (S gam : List Byte) (e : Nat) :
    (modifiedSyndromes c S gam e).length = c.nPar - e := by
  simp [modifiedSyndromes, polyMulMod]

theorem map_fst_of_mapM_eq_some {α β : Type} {f : α → Option β} {l : List α}
    {ys : List (α × β)} (h : l.mapM (fun i => (f i).map fun y => (i, y)) = some ys) :
    ys.map Prod.fst = l := by
  induction l generalizing ys with
  | nil => simp_all
  | cons i l ih =>
    simp only [List.mapM_cons, Option.bind_eq_bind, Option.bind_eq_some_iff, Option.map_eq_some_iff,
      Option.pure_def, Option.some.injEq] at h
    obtain ⟨_, ⟨y, -, rfl⟩, zs, hzs, rfl⟩ := h
    rw [List.map_cons, ih hzs]

/-- There is one error value for each of the positions asked for, in their order (R122). -/
theorem map_fst_errorValues {c : Config} {S lam gam : List Byte} {pos : List Nat}
    {ys : List (Nat × Byte)} (h : errorValues c S lam gam pos = some ys) :
    ys.map Prod.fst = pos := map_fst_of_mapM_eq_some h

theorem correct_getD {c : Config} (w : List Byte) (ys : List (Nat × Byte)) {i : Nat}
    (hi : i < c.nSym) :
    (correct c w ys).getD i 0#8 = w.getD i 0#8 ^^^ (ys.lookup i).getD 0#8 :=
  getD_map_range _ _ _ _ hi

/-- A position without an error value keeps its byte (R123). -/
theorem correct_getD_of_notMem {c : Config} (w : List Byte) {ys : List (Nat × Byte)} {i : Nat}
    (hi : i < c.nSym) (hys : i ∉ ys.map Prod.fst) :
    (correct c w ys).getD i 0#8 = w.getD i 0#8 := by
  have hnone : ys.lookup i = none := by
    rw [List.lookup_eq_none_iff]
    rintro ⟨k, y⟩ hmem
    exact bne_iff_ne.2 fun hik => hys (hik ▸ List.mem_map_of_mem hmem)
  rw [correct_getD w ys hi, hnone]
  simp

/-- A corrected word differs from the received one, outside the erasures, at located positions only
(R119, R123). -/
theorem errorCount_correct_le {c : Config} {w : List Byte} {E Q : List Nat}
    {ys : List (Nat × Byte)} (hys : ys.map Prod.fst = E ++ Q) :
    errorCount c E w (correct c w ys) ≤ Q.length := by
  have hsub : diffSet c w (correct c w ys) \ E.toFinset ⊆ Q.toFinset := by
    intro i hi
    obtain ⟨hdiff, hE⟩ := Finset.mem_sdiff.1 hi
    obtain ⟨hn, hne⟩ := mem_diffSet.1 hdiff
    by_contra hQ
    rw [List.mem_toFinset] at hE hQ
    exact hne (correct_getD_of_notMem w hn (by simp [hys, hE, hQ])).symm
  rw [errorCount_eq_card]
  exact (Finset.card_le_card hsub).trans (List.toFinset_card_le Q)

/-- What `RSDEC` corrects to is a codeword within capacity of the received word (R128). -/
theorem rsDecode_corrected_sound {c : Config} {w v : List Byte} {E : List Nat} (hc : c.wf = true)
    (h : rsDecode c w E = .corrected v) : IsCodeword c v ∧ WithinCapacity c w E v := by
  obtain ⟨hE, hlen, hz⟩ := rsDecode_corrected h
  refine ⟨(allZero_syndromes_iff hc hlen).1 hz, ?_⟩
  rcases rsDecode_cases c w E with ⟨_, h'⟩ | ⟨_, _, h'⟩ | ⟨_, _, h'⟩
  · simp [h'] at h
  · simp [h'] at h
  · rw [h'] at h
    rcases rsCorrect_cases c w E with h'' | ⟨lam, ys, hloc, hQ, hys, -, h''⟩
    · simp [h''] at h
    · obtain rfl : correct c w ys = v := by simpa [h''] using h
      have hbound := two_mul_length_le_of_errorLocator hloc
      have hcount := errorCount_correct_le (c := c) (w := w) (map_fst_errorValues hys)
      rw [modifiedSyndromes_length] at hbound
      unfold WithinCapacity
      omega

end Sys2Proof.Machine

namespace Sys2Proof

open Machine

/-- Settles O36: at most `Lc` positions outside the erasures are corrected, and `2 Lc ≤ r - e`. -/
theorem correctedWordIsSound : Obligations.CorrectedWordIsSound :=
  fun _ _ _ _ hc _ _ h => rsDecode_corrected_sound hc h

end Sys2Proof
end

section
/-! The Berlekamp-Massey iteration on the two kinds of modified syndromes that erasures and at most
one error leave (spec/41_rs_decoder.md R117, R118): all zero, or each the one before times the
locator `X` of the error.  The locator found is `1`, respectively `1 + X x`. -/

namespace Sys2Proof.Machine

/-- An iteration with discrepancy zero leaves the locator and its degree (R117). -/
theorem bmStep_of_discrepancy_eq_zero {P : Poly9} {r : Nat} {U : List Byte} {st : BmState} {q : Nat}
    (h : bmDiscrepancy P U st q = 0#8) : bmStep P r U st q = { st with s := st.s + 1 } := by
  simp [bmStep, h]

theorem bmStep_of_discrepancy_ne_zero {P : Poly9} {r : Nat} {U : List Byte} {st : BmState} {q : Nat}
    (h : bmDiscrepancy P U st q ≠ 0#8) :
    bmStep P r U st q =
      let lam := bmUpdate P r st (gfDiv P (bmDiscrepancy P U st q) st.b.1 st.b.2)
      if 2 * st.lc ≤ q then
        { lam := lam, bp := st.lam, lc := q + 1 - st.lc, s := 1, b := ⟨_, h⟩ }
      else { st with lam := lam, s := st.s + 1 } := by
  simp [bmStep, h]

/-- Iterations whose discrepancies are zero leave the locator and its degree. -/
theorem foldl_bmStep_of_discrepancies_eq_zero {P : Poly9} {r : Nat} {U : List Byte} {qs : List Nat}
    {st : BmState} (h : ∀ q ∈ qs, bmDiscrepancy P U st q = 0#8) :
    (qs.foldl (bmStep P r U) st).lam = st.lam ∧ (qs.foldl (bmStep P r U) st).lc = st.lc := by
  induction qs generalizing st with
  | nil => exact ⟨rfl, rfl⟩
  | cons q qs ih =>
    rw [List.forall_mem_cons] at h
    rw [List.foldl_cons, bmStep_of_discrepancy_eq_zero h.1]
    exact ih h.2

theorem bmDiscrepancy_of_lc_zero (P : Poly9) (U : List Byte) {st : BmState} (q : Nat)
    (h : st.lc = 0) : bmDiscrepancy P U st q = U.getD q 0#8 := by
  simp [bmDiscrepancy, h]

theorem bmDiscrepancy_of_lc_one (P : Poly9) (U : List Byte) {st : BmState} (q : Nat)
    (h : st.lc = 1) :
    bmDiscrepancy P U st q =
      U.getD q 0#8 ^^^ gfMul P (st.lam.getD 1 0#8) (U.getD (q - 1) 0#8) := by
  simp [bmDiscrepancy, h]

/-- The degree is the index of the last coefficient that is not zero (R118). -/
theorem polyDegree_eq {p : List Byte} {m : Nat} (hm : p.getD m 0#8 ≠ 0#8)
    (hlast : ∀ l, m < l → p.getD l 0#8 = 0#8) : polyDegree p = m := by
  have hlen : m < p.length := by
    by_contra hge
    exact hm (List.getD_eq_default _ _ (not_lt.1 hge))
  have hfold : ∀ k, (List.range (m + 1 + k)).foldl
      (fun dg l => if p.getD l 0#8 = 0#8 then dg else l) 0 = m := by
    intro k
    induction k with
    | zero => rw [Nat.add_zero, List.range_succ, List.foldl_append, List.foldl_cons, if_neg hm,
        List.foldl_nil]
    | succ k ih => rw [← Nat.add_assoc, List.range_succ, List.foldl_append, ih, List.foldl_cons,
        if_pos (hlast _ (by omega)), List.foldl_nil]
  rw [polyDegree, ← hfold (p.length - (m + 1))]
  congr 2
  omega

/-- How the locator is read off the end of the iteration (R118). -/
theorem errorLocator_eq_some {c : Config} {U : List Byte} {m : Nat}
    (hlc : (berlekampMassey c U).lc = m) (hlen : 2 * m ≤ U.length)
    (hdeg : polyDegree (berlekampMassey c U).lam = m) :
    errorLocator c U = some ((berlekampMassey c U).lam.take (m + 1)) := by
  simp [errorLocator, hlc, hdeg, not_lt.2 hlen]

/-- Modified syndromes that are all zero have the locator `1`. -/
theorem errorLocator_of_zero {c : Config} {U : List Byte} (hU : ∀ q, U.getD q 0#8 = 0#8) :
    errorLocator c U = some [0x01#8] := by
  obtain ⟨hlam, hlc⟩ : (berlekampMassey c U).lam = (bmInit c.nPar).lam ∧
      (berlekampMassey c U).lc = 0 :=
    foldl_bmStep_of_discrepancies_eq_zero fun q _ =>
      (bmDiscrepancy_of_lc_zero _ U q rfl).trans (hU q)
  have hdeg : polyDegree (bmInit c.nPar).lam = 0 :=
    polyDegree_eq (by simp [bmInit]) fun l hl => by
      obtain ⟨l, rfl⟩ := Nat.exists_eq_succ_of_ne_zero hl.ne'
      exact replicate_getD_self ..
  rw [errorLocator_eq_some hlc (Nat.zero_le _) (hlam ▸ hdeg), hlam]
  rfl

/-- The update of a locator `1 + y x` by the untouched start polynomial (R117). -/
theorem bmUpdate_linear {P : Poly9} {k : Nat} {st : BmState} {y : Byte} (coef : Byte)
    (hlam : st.lam = 0x01#8 :: y :: List.replicate k 0#8)
    (hbp : st.bp = 0x01#8 :: List.replicate (k + 1) 0#8) (hs : st.s = 1) :
    bmUpdate P (k + 1) st coef = 0x01#8 :: (y ^^^ coef) :: List.replicate k 0#8 := by
  refine List.ext_getElem (by simp [bmUpdate]) fun t _ _ => ?_
  match t with
  | 0 => simp [bmUpdate, hlam, hs]
  | 1 => simp [bmUpdate, hlam, hbp, hs]
  | t + 2 =>
    have hzero : ∀ m u : Nat, (List.replicate m 0#8)[u]?.getD 0#8 = 0#8 := fun m u =>
      (List.getD_eq_getElem?_getD ..).symm.trans (replicate_getD_self ..)
    simp [bmUpdate, hlam, hbp, hs, hzero]

/-- The iteration after its first discrepancy `a`: locator `1 + a x`, of degree one (R117). -/
def bmOne (k : Nat) (a : Byte) (ha : a ≠ 0#8) : BmState where
  lam := 0x01#8 :: a :: List.replicate k 0#8
  bp := 0x01#8 :: List.replicate (k + 1) 0#8
  lc := 1
  s := 1
  b := ⟨a, ha⟩

theorem bmStep_first (P : Poly9) (k : Nat) {U : List Byte} (h0 : U.getD 0 0#8 ≠ 0#8) :
    bmStep P (k + 1) U (bmInit (k + 1)) 0 = bmOne k (U.getD 0 0#8) h0 := by
  have hd : bmDiscrepancy P U (bmInit (k + 1)) 0 = U.getD 0 0#8 :=
    bmDiscrepancy_of_lc_zero P U 0 rfl
  have hcoef : gfDiv P (U.getD 0 0#8) (bmInit (k + 1)).b.1 (bmInit (k + 1)).b.2 = U.getD 0 0#8 := by
    rw [gfDiv, gfInv_eq_gfPow]
    exact (congrArg _ (gfPow_one_base P 254)).trans (gfMul_one_right P _)
  rw [bmStep_of_discrepancy_ne_zero (hd ▸ h0)]
  simp only [hd, hcoef]
  rw [if_pos (show 2 * (bmInit (k + 1)).lc ≤ 0 from le_rfl),
    bmUpdate_linear (y := 0#8) _ rfl rfl rfl]
  simp only [BitVec.zero_xor]
  rfl

/-- The second iteration corrects the locator to `1 + X x` when the next modified syndrome is `X`
times the first: the discrepancy is then `a (X + a)` (R117). -/
theorem bmStep_second {P : Poly9} (h : primitive P = true) (k : Nat) {U : List Byte} {X : Byte}
    (h0 : U.getD 0 0#8 ≠ 0#8) (h1 : U.getD 1 0#8 = gfMul P X (U.getD 0 0#8)) :
    (bmStep P (k + 1) U (bmOne k (U.getD 0 0#8) h0) 1).lam =
        0x01#8 :: X :: List.replicate k 0#8 ∧
      (bmStep P (k + 1) U (bmOne k (U.getD 0 0#8) h0) 1).lc = 1 := by
  have hd : bmDiscrepancy P U (bmOne k (U.getD 0 0#8) h0) 1 =
      gfMul P (U.getD 0 0#8) (X ^^^ U.getD 0 0#8) := by
    rw [bmDiscrepancy_of_lc_one P U 1 rfl, h1, gfMul_xor_right, gfMul_comm P X]
    rfl
  by_cases hzero : bmDiscrepancy P U (bmOne k (U.getD 0 0#8) h0) 1 = 0#8
  · have hX : U.getD 0 0#8 = X := by
      rw [hd, gfMul_eq_zero_iff h, BitVec.xor_eq_zero_iff] at hzero
      exact (hzero.resolve_left h0).symm
    rw [bmStep_of_discrepancy_eq_zero hzero]
    exact ⟨by simp only [bmOne, hX], rfl⟩
  · have hcoef : gfDiv P (bmDiscrepancy P U (bmOne k (U.getD 0 0#8) h0) 1) (U.getD 0 0#8) h0 =
        X ^^^ U.getD 0 0#8 := by
      rw [hd, gfDiv, gfMul_comm, gfInv_mul_cancel_left h h0]
    rw [bmStep_of_discrepancy_ne_zero hzero]
    dsimp only
    rw [if_neg (by simp [bmOne]), bmUpdate_linear _ rfl rfl rfl]
    refine ⟨?_, rfl⟩
    rw [show gfDiv P _ (bmOne k (U.getD 0 0#8) h0).b.1 _ = _ from hcoef, BitVec.xor_comm X,
      ← BitVec.xor_assoc, BitVec.xor_self, BitVec.zero_xor]

/-- Modified syndromes that start with a byte other than zero and go on with factor `X` have the
locator `1 + X x`. -/
theorem errorLocator_of_geometric {c : Config} (hc : c.wf = true) {U : List Byte} {X : Byte}
    (hX : X ≠ 0#8) (hlen : 2 ≤ U.length) (h0 : U.getD 0 0#8 ≠ 0#8)
    (hU : ∀ q, q + 1 < U.length → U.getD (q + 1) 0#8 = gfMul c.gfPoly X (U.getD q 0#8)) :
    errorLocator c U = some [0x01#8, X] := by
  obtain ⟨k, hk⟩ : ∃ k, c.nPar = k + 1 := ⟨c.nPar - 1, by have := Config.wf_nPar hc; omega⟩
  obtain ⟨hlam2, hlc2⟩ := bmStep_second (Config.wf_gfPoly hc) k h0 (hU 0 (by omega))
  set st := bmStep c.gfPoly (k + 1) U (bmOne k (U.getD 0 0#8) h0) 1
  have hrange : List.range U.length = 0 :: 1 :: List.range' 2 (U.length - 2) := by
    rw [List.range_eq_range']
    obtain ⟨m, hm⟩ := Nat.exists_eq_add_of_le' hlen
    simp [hm, List.range'_succ]
  have hbm : berlekampMassey c U = (List.range' 2 (U.length - 2)).foldl
      (bmStep c.gfPoly c.nPar U) st := by
    rw [berlekampMassey, hrange, hk, List.foldl_cons, List.foldl_cons, bmStep_first _ _ h0]
  have hrest : ∀ q ∈ List.range' 2 (U.length - 2), bmDiscrepancy c.gfPoly U st q = 0#8 := by
    intro q hq
    rw [List.mem_range'_1] at hq
    have hprev := hU (q - 1) (by omega)
    rw [Nat.sub_add_cancel (by omega)] at hprev
    rw [bmDiscrepancy_of_lc_one _ U q hlc2, hlam2, hprev]
    exact BitVec.xor_self
  obtain ⟨hlam, hlc⟩ := foldl_bmStep_of_discrepancies_eq_zero (r := c.nPar) hrest
  rw [← hbm] at hlam hlc
  have hdeg : polyDegree (berlekampMassey c U).lam = 1 := by
    rw [hlam, hlam2]
    refine polyDegree_eq hX fun l hl => ?_
    obtain ⟨l, rfl⟩ := Nat.exists_eq_add_of_le' hl
    exact replicate_getD_self ..
  rw [errorLocator_eq_some (hlc.trans hlc2) hlen hdeg, hlam, hlam2]
  rfl

end Sys2Proof.Machine
end

section
/-! Proofs about erasures with at most one error (spec/41_rs_decoder.md R116 to R124, R127 to R129).
The located positions are read off `errorLocator`, and for a set of erased and located positions
that holds all differences from a codeword, of at most `r` members, `RSDEC` restores the codeword.
That `r` erasures never fail is a counting argument: the syndromes of the words that differ from the
received one at the erasures take every value, the zero syndromes among them. -/

namespace Sys2Proof.Machine

open Polynomial

/-! ### The locator polynomial of a list of positions -/

@[simp] theorem erasureLocator_length (c : Config) (E : List Nat) :
    (erasureLocator c E).length = E.length + 1 := by
  have hfold : ∀ g : List Byte,
      (E.foldl (fun g i => polyMul c.gfPoly g [0x01#8, locator c i]) g).length
        = E.length + g.length := by
    induction E with
    | nil => simp
    | cons i E ih =>
      intro g
      rw [List.foldl_cons, ih, polyMul_length, List.length_cons,
        List.length_cons, List.length_cons, List.length_nil]
      omega
  exact hfold [0x01#8]

theorem erasureLocator_singleton (c : Config) (i : Nat) :
    erasureLocator c [i] = [0x01#8, locator c i] := by
  simp [erasureLocator, polyMul, polyCoeff, List.range_succ]

section Field

variable {K : Type} [Field K] {c : Config} {φ : Byte → K} (hφ : GfModel c.gfPoly φ)
include hφ

theorem toPoly_erasureLocator {E : List Nat} (hE : E.Nodup) :
    toPoly φ (erasureLocator c E) = locPoly (loc φ c) E.toFinset := by
  have hfactor : ∀ i, toPoly φ [0x01#8, locator c i] = 1 - C (loc φ c i) * X := by
    intro i
    rw [sub_eq_add_neg, ← neg_mul, ← C_neg, hφ.neg_eq]
    simp only [toPoly, hφ.map_one, C_1, mul_zero, add_zero, loc, X_mul_C]
  have hfold : ∀ (l : List Nat) (g : List Byte),
      toPoly φ (l.foldl (fun g i => polyMul c.gfPoly g [0x01#8, locator c i]) g) =
        toPoly φ g * (l.map fun i => 1 - C (loc φ c i) * X).prod := by
    intro l
    induction l with
    | nil => simp
    | cons i l ih =>
      intro g
      rw [List.foldl_cons, ih, hφ.toPoly_polyMul, hfactor, List.map_cons, List.prod_cons, mul_assoc]
  rw [erasureLocator, hfold, locPoly, List.prod_toFinset _ hE]
  simp [toPoly, hφ.map_one]

theorem toPoly_polyDeriv (p : List Byte) :
    toPoly φ (polyDeriv p) = derivative (toPoly φ p) := by
  have htwo : (2 : K) = 0 := by rw [← one_add_one_eq_two, hφ.add_self]
  ext t
  rw [hφ.toPoly_coeff, coeff_derivative, hφ.toPoly_coeff, polyDeriv, getD_map_range_eq_ite]
  by_cases ht : t < p.length - 1
  · rw [if_pos ht]
    rcases Nat.even_or_odd' t with ⟨m, rfl | rfl⟩
    · simp [htwo]
    · have hzero : ((2 * m + 1 : ℕ) : K) + 1 = 0 := by
        push_cast
        linear_combination ((m : K) + 1) * htwo
      rw [hzero, mul_zero, if_neg (by omega), hφ.map_zero]
  · rw [if_neg ht, List.getD_eq_default p _ (by omega), hφ.map_zero, zero_mul]

theorem map_gfDiv (h : primitive c.gfPoly = true) (a : Byte) {b : Byte} (hb : b ≠ 0#8) :
    φ (gfDiv c.gfPoly a b hb) = φ a / φ b := by
  have hone : φ b * φ (gfInv c.gfPoly b hb) = 1 := by
    rw [← hφ.map_mul, gfMul_gfInv h hb, hφ.map_one]
  rw [gfDiv, hφ.map_mul, eq_div_iff (left_ne_zero_of_mul_eq_one hone), mul_assoc,
    mul_comm _ (φ b), hone, mul_one]

variable (hc : c.wf = true)
include hc

/-- The roots of the locator polynomial of `Q` are the inverse locators of `Q` (R119). -/
theorem polyEval_erasureLocator_eq_zero_iff {Q : List Nat} (hQ : Q.Nodup)
    (hQn : ∀ i ∈ Q, i < c.nSym) {i : Nat} (hi : i < c.nSym) :
    polyEval c.gfPoly (erasureLocator c Q) (locatorInv c i) = 0#8 ↔ i ∈ Q := by
  have hz := loc_mul_locatorInv hφ hc i
  rw [← hφ.map_eq_zero_iff, hφ.map_polyEval, toPoly_erasureLocator hφ hQ, locPoly, eval_prod,
    Finset.prod_eq_zero_iff]
  constructor
  · rintro ⟨k, hk, hzero⟩
    rw [List.mem_toFinset] at hk
    have hkz : loc φ c k * φ (locatorInv c i) = 1 := (sub_eq_zero.1 (by simpa using hzero)).symm
    have hik : i = k := loc_injOn hφ hc (by simpa using hi) (by simpa using hQn k hk)
      (mul_right_cancel₀ (right_ne_zero_of_mul_eq_one hz) (hz.trans hkz.symm))
    exact hik ▸ hk
  · intro hiQ
    exact ⟨i, List.mem_toFinset.2 hiQ, by simp [hz]⟩

/-! ### Forney's values -/

/-- The factor `alpha^((n-1-i)(1-FCR))` of Forney's formula undoes the weighting of the parity checks
up to one locator (R122). -/
theorem forney_factor_mul_pow (i : Nat) :
    φ (alphaPowInt c.gfPoly (((c.nSym - 1 - i : ℕ) : ℤ) * (1 - (c.fcr : ℤ)))) *
      loc φ c i ^ c.fcr = loc φ c i := by
  have hx : loc φ c i ≠ 0 := loc_ne_zero hφ hc i
  rw [hφ.map_alphaPowInt (Config.wf_gfPoly hc), zpow_mul, zpow_natCast, ← loc_eq_pow hφ hc,
    zpow_sub₀ hx, zpow_one, zpow_natCast, div_mul_cancel₀ _ (pow_ne_zero _ hx)]

section Values

variable {w v psi : List Byte} {D : Finset ℕ} (hw : w.length = c.nSym) (hv : IsCodeword c v)
  (hD : D ⊆ Finset.range c.nSym) (hcard : D.card ≤ c.nPar) (hdiff : diffSet c w v ⊆ D)
  (hpsi : toPoly φ psi = locPoly (loc φ c) D)
include hw hv hD hcard hdiff hpsi

/-- Step 9 computes the evaluator of the weighted differences from the codeword `v` (R121). -/
theorem toPoly_errorEvaluator :
    toPoly φ (polyMulMod c.gfPoly (syndromes c w) psi c.nPar) =
      evaluator (loc φ c) (weight φ c w v) D := by
  have hS : ∀ j < c.nPar, (toPoly φ (syndromes c w)).coeff j =
      ∑ k ∈ D, weight φ c w v k * loc φ c k ^ j := fun j hj => by
    rw [hφ.toPoly_coeff, map_syndrome_eq_powerSum hφ hc hw hv hD hdiff hj]
  ext t
  rw [hφ.toPoly_coeff, polyMulMod_getD]
  split
  · next ht => rw [hφ.map_polyCoeff, hpsi, key_equation hS t ht]
  · next ht => rw [hφ.map_zero, evaluator_coeff_eq_zero (hcard.trans (not_lt.1 ht))]

/-- The error value found at position `i` of a set `D` of at most `r` positions that holds all
differences from the codeword `v` is the difference at `i` (R120 to R122). -/
theorem forney_eq_difference {i : Nat} (hi : i ∈ D) :
    forney c (polyMulMod c.gfPoly (syndromes c w) psi c.nPar) (polyDeriv psi) i =
      some (w.getD i 0#8 ^^^ v.getD i 0#8) := by
  have hz := loc_mul_locatorInv hφ hc i
  obtain ⟨hden, hquot⟩ := evaluator_div_derivative (B := weight φ c w v)
    ((loc_injOn hφ hc).mono (Finset.coe_subset.2 hD)) hi hz
  have hdenφ : φ (polyEval c.gfPoly (polyDeriv psi) (locatorInv c i)) =
      (derivative (locPoly (loc φ c) D)).eval (φ (locatorInv c i)) := by
    rw [hφ.map_polyEval, toPoly_polyDeriv hφ, hpsi]
  have hden0 : polyEval c.gfPoly (polyDeriv psi) (locatorInv c i) ≠ 0#8 := fun h0 => by
    rw [h0, hφ.map_zero] at hdenφ
    exact hden hdenφ.symm
  unfold forney
  dsimp only
  rw [dif_neg hden0, Option.some.injEq]
  apply hφ.injective
  rw [hφ.map_mul, map_gfDiv hφ (Config.wf_gfPoly hc), hφ.map_polyEval _ (locatorInv c i),
    toPoly_errorEvaluator hφ hc hw hv hD hcard hdiff hpsi, hdenφ, hquot, hφ.neg_eq, weight]
  calc _ = φ (w.getD i 0#8 ^^^ v.getD i 0#8) *
        ((φ (alphaPowInt c.gfPoly (((c.nSym - 1 - i : ℕ) : ℤ) * (1 - (c.fcr : ℤ)))) *
          loc φ c i ^ c.fcr) * φ (locatorInv c i)) := by ring
    _ = _ := by rw [forney_factor_mul_pow hφ hc, hz, mul_one]

end Values

end Field

/-! ### From the locator to the codeword -/

theorem mapM_eq_some_map {α β : Type} {f : α → Option β} {g : α → β} {l : List α}
    (h : ∀ i ∈ l, f i = some (g i)) : l.mapM f = some (l.map g) := by
  induction l with
  | nil => rfl
  | cons i l ih =>
    rw [List.forall_mem_cons] at h
    simp [List.mapM_cons, h.1, ih h.2]

/-- The differences of two words at the given positions, as error values. -/
def differences (w v : List Byte) (pos : List Nat) : List (Nat × Byte) :=
  pos.map fun i => (i, w.getD i 0#8 ^^^ v.getD i 0#8)

theorem lookup_differences (w v : List Byte) {pos : List Nat} {i : Nat} (h : i ∈ pos) :
    (differences w v pos).lookup i = some (w.getD i 0#8 ^^^ v.getD i 0#8) := by
  induction pos with
  | nil => simp at h
  | cons k pos ih =>
    rw [differences, List.map_cons, List.lookup_cons]
    by_cases hik : i = k
    · simp [hik]
    · rw [beq_eq_false_iff_ne.2 hik]
      exact ih ((List.mem_cons.1 h).resolve_left hik)

@[simp] theorem map_fst_differences (w v : List Byte) (pos : List Nat) :
    (differences w v pos).map Prod.fst = pos := by
  simp [differences, Function.comp_def]

/-- Correcting a word by its differences from another gives the other (R123). -/
theorem correct_differences {c : Config} {w v : List Byte} {pos : List Nat}
    (hv : v.length = c.nSym) (hdiff : diffSet c w v ⊆ pos.toFinset) :
    correct c w (differences w v pos) = v := by
  refine eq_of_diffSet_eq_empty (correct_length ..) hv ?_
  refine Finset.eq_empty_of_forall_notMem fun i hi => ?_
  obtain ⟨hn, hne⟩ := mem_diffSet.1 hi
  by_cases hpos : i ∈ pos
  · rw [correct_getD w _ hn, lookup_differences w v hpos, Option.getD_some, ← BitVec.xor_assoc,
      BitVec.xor_self, BitVec.zero_xor] at hne
    exact hne rfl
  · rw [correct_getD_of_notMem w hn (by rwa [map_fst_differences])] at hne
    exact hpos (List.mem_toFinset.1 (hdiff (mem_diffSet.2 ⟨hn, hne⟩)))

section Restore

variable {c : Config} {w v : List Byte} {E Q : List Nat} (hc : c.wf = true)
include hc

/-- The search finds the positions of the locator (R119). -/
theorem chien_perm (hQ : Q.Nodup) (hQn : ∀ i ∈ Q, i < c.nSym) (hQE : ∀ i ∈ Q, i ∉ E) :
    (chien c (erasureLocator c Q) E).Perm Q := by
  obtain ⟨K, _, φ, hφ⟩ := exists_gfModel_field (Config.wf_gfPoly hc)
  have hnodup : (chien c (erasureLocator c Q) E).Nodup := List.nodup_range.filter _
  rw [List.perm_ext_iff_of_nodup hnodup hQ]
  intro i
  simp only [chien, List.mem_filter, List.mem_range, Bool.and_eq_true, Bool.not_eq_true',
    List.contains_eq_mem, decide_eq_false_iff_not, beq_iff_eq]
  constructor
  · rintro ⟨hi, -, hroot⟩
    exact (polyEval_erasureLocator_eq_zero_iff hφ hc hQ hQn hi).1 hroot
  · intro hi
    exact ⟨hQn i hi, hQE i hi, (polyEval_erasureLocator_eq_zero_iff hφ hc hQ hQn (hQn i hi)).2 hi⟩

variable (hw : w.length = c.nSym) (hv : IsCodeword c v) (hEQ : (E ++ Q).Nodup)
  (hn : ∀ i ∈ E ++ Q, i < c.nSym) (hcard : (E ++ Q).length ≤ c.nPar)
  (hdiff : diffSet c w v ⊆ (E ++ Q).toFinset)
include hw hv hEQ hn hcard hdiff

/-- The error values at `E` and `Q` are the differences from the codeword (R122). -/
theorem errorValues_eq_differences :
    errorValues c (syndromes c w) (erasureLocator c Q) (erasureLocator c E) (E ++ Q) =
      some (differences w v (E ++ Q)) := by
  obtain ⟨K, _, φ, hφ⟩ := exists_gfModel_field (Config.wf_gfPoly hc)
  obtain ⟨hE, hQ, hdisj⟩ := List.nodup_append'.1 hEQ
  have hpsi : toPoly φ (polyMul c.gfPoly (erasureLocator c Q) (erasureLocator c E)) =
      locPoly (loc φ c) (E ++ Q).toFinset := by
    rw [hφ.toPoly_polyMul, toPoly_erasureLocator hφ hQ, toPoly_erasureLocator hφ hE,
      List.toFinset_append, locPoly, locPoly, locPoly,
      Finset.prod_union (List.disjoint_toFinset_iff_disjoint.2 hdisj), mul_comm]
  have hvalue : ∀ i ∈ E ++ Q, (forney c _ _ i).map (fun y => (i, y)) =
      some (i, w.getD i 0#8 ^^^ v.getD i 0#8) := fun i hi => by
    rw [forney_eq_difference hφ hc hw hv
      (fun k hk => Finset.mem_range.2 (hn k (List.mem_toFinset.1 hk)))
      ((List.toFinset_card_le _).trans hcard) hdiff hpsi (List.mem_toFinset.2 hi)]
    rfl
  exact mapM_eq_some_map hvalue

/-- With the locator of `Q` found, `RSDEC` restores the codeword (R118 to R124). -/
theorem rsCorrect_eq_corrected (hchien : chien c (erasureLocator c Q) E = Q)
    (hloc : errorLocator c (modifiedSyndromes c (syndromes c w) (erasureLocator c E) E.length) =
      some (erasureLocator c Q)) : rsCorrect c w E = .corrected v := by
  have hz : allZero (syndromes c v) = true := (allZero_syndromes_iff hc hv.1).2 hv
  simp [rsCorrect, hloc, hchien, errorValues_eq_differences hc hw hv hEQ hn hcard hdiff,
    correct_differences hv.1 hdiff, hz]

end Restore

end Sys2Proof.Machine
end

section
/-! Proofs that `RSDEC` restores a word with erasures and at most one error within capacity, and
that `r` erasures never fail (spec/41_rs_decoder.md R127 to R129). -/

namespace Sys2Proof.Machine

open Polynomial

/-! ### The modified syndromes of a word near a codeword -/

theorem modifiedSyndromes_getD (c : Config) (S gam : List Byte) (e q : Nat) :
    (modifiedSyndromes c S gam e).getD q 0#8 =
      if e + q < c.nPar then polyCoeff c.gfPoly S gam (e + q) else 0#8 := by
  rw [← polyMulMod_getD, modifiedSyndromes]
  simp [List.getD_eq_getElem?_getD]

theorem toFinset_subset_range {E : List Nat} {n : Nat} (h : ∀ i ∈ E, i < n) :
    E.toFinset ⊆ Finset.range n :=
  fun i hi => Finset.mem_range.2 (h i (List.mem_toFinset.1 hi))

section Near

variable {c : Config} {w v : List Byte} {E : List Nat} (hc : c.wf = true)
  (hw : w.length = c.nSym) (hv : IsCodeword c v) (hE : ErasureSet c E)
include hc hw hv hE

/-- With no error beside the erasures the locator found is that of no position. -/
theorem errorLocator_of_no_error (hdiff : diffSet c w v ⊆ E.toFinset) :
    errorLocator c (modifiedSyndromes c (syndromes c w) (erasureLocator c E) E.length) =
      some (erasureLocator c []) := by
  obtain ⟨K, _, φ, hφ⟩ := exists_gfModel_field (Config.wf_gfPoly hc)
  obtain ⟨hnodup, hn⟩ := hE
  have hEn : E.toFinset ⊆ Finset.range c.nSym := toFinset_subset_range hn
  have hS : ∀ j < c.nPar, (toPoly φ (syndromes c w)).coeff j =
      ∑ i ∈ E.toFinset, weight φ c w v i * loc φ c i ^ j := fun j hj => by
    rw [hφ.toPoly_coeff, map_syndrome_eq_powerSum hφ hc hw hv hEn hdiff hj]
  have hcard : E.toFinset.card = E.length := List.toFinset_card_of_nodup hnodup
  refine errorLocator_of_zero fun q => ?_
  rw [modifiedSyndromes_getD, ite_eq_right_iff]
  intro hq
  rw [← hφ.map_eq_zero_iff, hφ.map_polyCoeff, toPoly_erasureLocator hφ hnodup]
  exact modified_eq_zero hS (by omega) hq

/-- With one error beside the erasures the locator found is that of its position. -/
theorem errorLocator_of_one_error {p : Nat} (hcap : E.length + 2 ≤ c.nPar)
    (hdiff : diffSet c w v \ E.toFinset = {p}) :
    errorLocator c (modifiedSyndromes c (syndromes c w) (erasureLocator c E) E.length) =
      some (erasureLocator c [p]) := by
  obtain ⟨K, _, φ, hφ⟩ := exists_gfModel_field (Config.wf_gfPoly hc)
  obtain ⟨hnodup, hn⟩ := hE
  obtain ⟨hpdiff, hpE⟩ := Finset.mem_sdiff.1 (hdiff ▸ Finset.mem_singleton_self p)
  obtain ⟨hpn, hpne⟩ := mem_diffSet.1 hpdiff
  have hD : insert p E.toFinset ⊆ Finset.range c.nSym :=
    Finset.insert_subset (Finset.mem_range.2 hpn) (toFinset_subset_range hn)
  have hsub : diffSet c w v ⊆ insert p E.toFinset := by
    rw [Finset.insert_eq, Finset.union_comm]
    exact sdiff_le_iff.1 hdiff.le
  have hS : ∀ j < c.nPar, (toPoly φ (syndromes c w)).coeff j =
      ∑ i ∈ insert p E.toFinset, weight φ c w v i * loc φ c i ^ j := fun j hj => by
    rw [hφ.toPoly_coeff, map_syndrome_eq_powerSum hφ hc hw hv hD hsub hj]
  have hcard : E.toFinset.card = E.length := List.toFinset_card_of_nodup hnodup
  have hmod : ∀ q, E.length + q < c.nPar →
      φ ((modifiedSyndromes c (syndromes c w) (erasureLocator c E) E.length).getD q 0#8) =
        (toPoly φ (syndromes c w) * locPoly (loc φ c) E.toFinset).coeff (E.length + q) := by
    intro q hq
    rw [modifiedSyndromes_getD, if_pos hq, hφ.map_polyCoeff, toPoly_erasureLocator hφ hnodup]
  rw [erasureLocator_singleton]
  refine errorLocator_of_geometric hc ?nonzero ?length ?first fun q hq => ?next
  case nonzero => exact fun h0 => loc_ne_zero hφ hc p (hφ.map_eq_zero_iff.2 h0)
  case length => rw [modifiedSyndromes_length]; omega
  case first =>
    rw [ne_eq, ← hφ.map_eq_zero_iff, hmod 0 (by omega), Nat.add_zero, ← hcard]
    exact modified_ne_zero hpE hS ((loc_injOn hφ hc).mono (Finset.coe_subset.2 hD))
      (loc_ne_zero hφ hc p) ((weight_ne_zero_iff hφ hc).2 hpne) (by omega)
  case next =>
    rw [modifiedSyndromes_length] at hq
    apply hφ.injective
    rw [hmod _ (by omega), hφ.map_mul, hmod _ (by omega), ← Nat.add_assoc,
      modified_succ hpE hS (by omega) (by omega), loc]

end Near

/-! ### Erasures and at most one error -/

section Correct

variable {c : Config} {w v : List Byte} {E : List Nat} (hc : c.wf = true)
  (hw : w.length = c.nSym) (hv : IsCodeword c v) (hE : ErasureSet c E)
  (hcap : WithinCapacity c w E v)
include hc hw hv hE hcap

theorem rsCorrect_of_no_error (ht : errorCount c E w v = 0) :
    rsCorrect c w E = .corrected v := by
  have hdiff : diffSet c w v ⊆ E.toFinset := by
    rwa [errorCount_eq_card, Finset.card_eq_zero, Finset.sdiff_eq_empty_iff_subset] at ht
  obtain ⟨hnodup, hn⟩ := hE
  have hchien : chien c (erasureLocator c []) E = [] :=
    (chien_perm hc List.nodup_nil (by simp) (by simp)).eq_nil
  refine rsCorrect_eq_corrected hc hw hv ?_ ?_ ?_ ?_ hchien
    (errorLocator_of_no_error hc hw hv ⟨hnodup, hn⟩ hdiff)
  · simpa using hnodup
  · simpa using hn
  · rw [List.append_nil]
    unfold WithinCapacity at hcap
    omega
  · simpa using hdiff

theorem rsCorrect_of_one_error (ht : errorCount c E w v = 1) :
    rsCorrect c w E = .corrected v := by
  obtain ⟨hnodup, hn⟩ := hE
  unfold WithinCapacity at hcap
  have hcount := ht
  rw [errorCount_eq_card, Finset.card_eq_one] at hcount
  obtain ⟨p, hdiff⟩ := hcount
  obtain ⟨hpdiff, hpE⟩ := Finset.mem_sdiff.1 (hdiff ▸ Finset.mem_singleton_self p)
  have hpn := (mem_diffSet.1 hpdiff).1
  rw [List.mem_toFinset] at hpE
  have hchien : chien c (erasureLocator c [p]) E = [p] := List.perm_singleton.1 <|
    chien_perm hc (List.nodup_singleton p) (by simpa using hpn) (by simpa using hpE)
  refine rsCorrect_eq_corrected hc hw hv ?_ ?_ ?_ ?_ hchien
    (errorLocator_of_one_error hc hw hv ⟨hnodup, hn⟩ (by omega) hdiff)
  · simpa [List.nodup_append] using ⟨hnodup, fun i hi hip => hpE (hip ▸ hi)⟩
  · simpa [or_imp, forall_and] using ⟨hn, hpn⟩
  · rw [List.length_append, List.length_singleton]
    omega
  · rw [List.toFinset_append]
    exact sdiff_le_iff.1 hdiff.le

/-- A word that is not a clean codeword, with at most one error beside its erasures, within
capacity, is restored (R127, R128 b). -/
theorem rsDecode_eq_corrected (ht : errorCount c E w v ≤ 1)
    (hsome : E ≠ [] ∨ errorCount c E w v = 1) : rsDecode c w E = .corrected v := by
  have hclean : ¬ (E = [] ∧ allZero (syndromes c w) = true) := by
    rintro ⟨rfl, hz⟩
    have hone := hsome.resolve_left (not_not.2 rfl)
    have hdiff : (diffSet c w v).card = 1 := by
      rwa [errorCount_eq_card, List.toFinset_nil, Finset.sdiff_empty] at hone
    have hwv : w = v := codewords_eq_of_card_diffSet_le hc ((allZero_syndromes_iff hc hw).1 hz) hv
      (hdiff.le.trans (Config.wf_nPar hc).1)
    simp [hwv, diffSet] at hdiff
  have hlen : ¬ c.nPar < E.length := by
    unfold WithinCapacity at hcap
    omega
  rw [rsDecode, if_neg hlen, if_neg hclean]
  rcases Nat.le_one_iff_eq_zero_or_eq_one.1 ht with h0 | h1
  · exact rsCorrect_of_no_error hc hw hv hE hcap h0
  · exact rsCorrect_of_one_error hc hw hv hE hcap h1

end Correct

/-! ### As many erasures as parity symbols -/

/-- Some codeword differs from a word only at `r` given positions (R129). -/
theorem exists_codeword_near {c : Config} {w : List Byte} {E : List Nat} (hc : c.wf = true)
    (hE : ErasureSet c E) (hlen : E.length = c.nPar) :
    ∃ v, IsCodeword c v ∧ diffSet c w v ⊆ E.toFinset := by
  obtain ⟨K, _, φ, hφ⟩ := exists_gfModel_field (Config.wf_gfPoly hc)
  obtain ⟨hnodup, hn⟩ := hE
  have hEn : E.toFinset ⊆ Finset.range c.nSym := toFinset_subset_range hn
  obtain ⟨B, hB⟩ := exists_weights (r := c.nPar)
    ((loc_injOn hφ hc).mono (Finset.coe_subset.2 hEn)) (fun i _ => loc_ne_zero hφ hc i)
    ((List.toFinset_card_of_nodup hnodup).trans hlen)
    fun j => ∑ i ∈ Finset.range c.nSym, φ (w.getD i 0#8) * loc φ c i ^ (c.fcr + j)
  choose y hy using fun i => hφ.bijective.2
    (if i ∈ E.toFinset then B i * (loc φ c i ^ c.fcr)⁻¹ else 0)
  refine ⟨(List.range c.nSym).map fun i => w.getD i 0#8 ^^^ y i, ⟨by simp, fun j hj => ?_⟩, ?_⟩
  · have hterm : ∀ i ∈ Finset.range c.nSym,
        φ (((List.range c.nSym).map fun i => w.getD i 0#8 ^^^ y i).getD i 0#8) *
            loc φ c i ^ (c.fcr + j) =
          φ (w.getD i 0#8) * loc φ c i ^ (c.fcr + j) +
            if i ∈ E.toFinset then B i * loc φ c i ^ j else 0 := by
      intro i hi
      have hx : loc φ c i ^ c.fcr ≠ 0 := pow_ne_zero _ (loc_ne_zero hφ hc i)
      rw [getD_map_range _ _ _ _ (Finset.mem_range.1 hi), hφ.map_xor, hy, add_mul, ite_mul,
        zero_mul, pow_add, mul_assoc (B i), inv_mul_cancel_left₀ hx]
    rw [← hφ.map_eq_zero_iff, map_paritySum hφ hc, Finset.sum_congr rfl hterm,
      Finset.sum_add_distrib, Finset.sum_ite_mem, Finset.inter_eq_right.2 hEn, hB j hj,
      hφ.add_self]
  · intro i hi
    obtain ⟨hin, hne⟩ := mem_diffSet.1 hi
    by_contra hiE
    have hy0 : y i = 0#8 := hφ.map_eq_zero_iff.1 ((hy i).trans (if_neg hiE))
    rw [getD_map_range _ _ _ _ hin, hy0, BitVec.xor_zero] at hne
    exact hne rfl

end Sys2Proof.Machine

namespace Sys2Proof

open Machine

/-- Settles O39: within capacity by `rsDecode_eq_corrected`; and with `r` erasures there is a
codeword that differs from the word at the erasures only, to which the first part applies. -/
theorem erasuresAndOneErrorAreCorrected : Obligations.ErasuresAndOneErrorAreCorrected := by
  intro c w E hc hw hE
  refine ⟨fun v hv hcap ht hsome => rsDecode_eq_corrected hc hw hv hE hcap ht hsome,
    fun hlen => ?_⟩
  obtain ⟨v, hv, hdiff⟩ := exists_codeword_near (w := w) hc hE hlen
  have ht : errorCount c E w v = 0 := by
    rw [errorCount_eq_card, Finset.sdiff_eq_empty_iff_subset.2 hdiff, Finset.card_empty]
  have hcap : WithinCapacity c w E v := by
    unfold WithinCapacity
    omega
  have hne : E ≠ [] := by
    rintro rfl
    exact absurd (Config.wf_nPar hc).1 (by simp [← hlen])
  exact ⟨v, rsDecode_eq_corrected hc hw hv hE hcap (by omega) (.inl hne), hv⟩

end Sys2Proof
end

section
/-! Proofs about frames and fields (spec/30_encoding.md): decoding and encoding are inverse to each
other (R63 to R65), the decode function with the codeword length is R69's, and the fields of
responses are little-endian (R43, R67). -/

namespace Sys2Proof

/-! ### Decoding and encoding -/

theorem toNat_ofNat_length {α : Type} {l : List α} (h : l.length ≤ 255) :
    (BitVec.ofNat 8 l.length).toNat = l.length := by
  rw [BitVec.toNat_ofNat, Nat.mod_eq_of_lt (by omega)]

/-- A push frame that is built from its two sequences is read back as them (R63, R64). -/
theorem decode_encode_pushC1 {data : List Byte} {flags : List Bool} (hd : data.length ≤ 255)
    (hf : flags.length ≤ 255) :
    decode (encode (.pushC1 data flags)) = .ok (.pushC1 data flags) := by
  rw [encode, Instr.opcode, decode_push, decodePush_cons, toNat_ofNat_length hd,
    toNat_ofNat_length hf, List.drop_left, List.take_left, flagBytes_not_reserved, flagBytes_read]
  simp

theorem decode_encode {i : Instr} (h : i.wf = true) : decode (encode i) = .ok i := by
  cases i with
  | pushC1 data flags =>
    simp only [Instr.wf, Bool.and_eq_true, decide_eq_true_eq] at h
    exact decode_encode_pushC1 h.1 h.2
  | pullData => rfl
  | pullErr => rfl
  | flush => rfl
  | resetStats => rfl
  | getStats => rfl
  | reportStatus => rfl
  | reset => rfl

/-- Inversion of the decoder: a frame that decodes is one byte of a format Z opcode, or a push frame
of the length its own bytes require without a reserved flag byte (R65, R68, R69). -/
theorem decode_ok_cases {F : Frame} {i : Instr} (h : decode F = .ok i) :
    (∃ op, F = [op] ∧ formatZ op = some i) ∨
      ∃ dlen flen body, F = 0x01#8 :: dlen :: flen :: body ∧
        body.length = dlen.toNat + flen.toNat ∧
        (body.drop dlen.toNat).any (fun b => 1 < b.toNat) = false ∧
        i = .pushC1 (body.take dlen.toNat) ((body.drop dlen.toNat).map (· == 0x01#8)) := by
  match F with
  | [] => simp at h
  | op :: rest =>
    by_cases hop : op = 0x01#8
    · subst hop
      rw [decode_push] at h
      match rest with
      | [] => simp [decodePush_short] at h
      | [_] => simp [decodePush_short] at h
      | dlen :: flen :: body =>
        rw [decodePush_cons] at h
        split at h
        · simp at h
        · next hlen =>
          split at h
          · simp at h
          · next hres =>
            exact .inr ⟨dlen, flen, body, rfl, not_not.1 hlen, Bool.not_eq_true _ ▸ hres,
              (Except.ok.inj h).symm⟩
    · cases hz : formatZ op with
      | none => simp [decode_illegal rest hop hz] at h
      | some k =>
        rw [decode_formatZ rest hz] at h
        split at h
        · next hrest => exact .inl ⟨op, by rw [hrest], by rw [hz, Except.ok.inj h]⟩
        · simp at h

/-- A frame that decodes is the encoding of its command (R65, R68). -/
theorem encode_of_decode {F : Frame} {i : Instr} (h : decode F = .ok i) :
    i.wf = true ∧ encode i = F := by
  rcases decode_ok_cases h with ⟨op, rfl, hz⟩ | ⟨dlen, flen, body, rfl, hlen, hres, rfl⟩
  · exact (formatZ_eq_some hz).symm
  · have hd : (body.take dlen.toNat).length = dlen.toNat := by rw [List.length_take]; omega
    have hf : ((body.drop dlen.toNat).map (· == 0x01#8)).length = flen.toNat := by
      rw [List.length_map, List.length_drop]; omega
    refine ⟨?_, ?_⟩
    · simp only [Instr.wf, hd, hf, Bool.and_eq_true, decide_eq_true_eq]
      omega
    · rw [encode, hd, hf, flagBytes_of_not_reserved hres, List.take_append_drop,
        BitVec.ofNat_toNat, BitVec.ofNat_toNat]
      simp [Instr.opcode]

/-! ### The decode function with the codeword length -/

theorem decodeFor_of_error (n : Nat) {F : Frame} {st : Status} (h : decode F = .error st) :
    decodeFor n F = .error st := by simp [decodeFor, h]

theorem decodeFor_of_ok (n : Nat) {F : Frame} {i : Instr} (h : decode F = .ok i) :
    decodeFor n F = if i.wellSized n then .ok i else .error .errLength := by simp [decodeFor, h]

theorem wellSized_of_formatZ (n : Nat) {op : Byte} {i : Instr} (h : formatZ op = some i) :
    i.wellSized n = true := by
  obtain rfl := opcode_of_formatZ h
  cases i with
  | pushC1 => simp [formatZ, Instr.opcode] at h
  | _ => rfl

/-- The command of a format Z opcode, as R69's chain of comparisons gives it. -/
theorem ok_formatZ_eq_chain {op : Byte} {i : Instr} (h : formatZ op = some i) :
    (Except.ok i : Except Status Instr) =
      if op = 0x02#8 then .ok .pullData
      else if op = 0x03#8 then .ok .pullErr
      else if op = 0x04#8 then .ok .flush
      else if op = 0x05#8 then .ok .resetStats
      else if op = 0x06#8 then .ok .getStats
      else if op = 0x07#8 then .ok .reportStatus
      else .ok .reset := by
  obtain rfl := opcode_of_formatZ h
  cases i with
  | pushC1 => simp [formatZ, Instr.opcode] at h
  | _ => rfl

/-- The decode function on a frame of a format Z opcode (R69). -/
theorem decodeFor_formatZ (n : Nat) {op : Byte} {i : Instr} (rest : Frame)
    (h : formatZ op = some i) :
    decodeFor n (op :: rest) = if rest = [] then .ok i else .error .errFormat := by
  have hdec := decode_formatZ rest h
  split
  · next hrest =>
    rw [if_pos hrest] at hdec
    rw [decodeFor_of_ok n hdec, if_pos (wellSized_of_formatZ n h)]
  · next hrest =>
    rw [if_neg hrest] at hdec
    exact decodeFor_of_error n hdec

/-- The decode function on a push frame with its two length bytes (R69). -/
theorem decodeFor_push (n : Nat) (dlen flen : Byte) (body : Frame) :
    decodeFor n (0x01#8 :: dlen :: flen :: body) =
      if body.length ≠ dlen.toNat + flen.toNat then .error .errFormat
      else if ∃ b ∈ body.drop dlen.toNat, 0x01 < b.toNat then .error .errFormat
      else if dlen.toNat ≠ n ∨ flen.toNat ≠ n then .error .errLength
      else .ok (.pushC1 (body.take dlen.toNat) ((body.drop dlen.toNat).map (· == 0x01#8))) := by
  split
  · next hlen => exact decodeFor_of_error n (decode_push_of_length_ne hlen)
  · next hlen =>
    rw [not_not] at hlen
    split
    · next hres => exact decodeFor_of_error n (decode_push_of_reserved hlen hres)
    · next hres =>
      have hdec : decode (0x01#8 :: dlen :: flen :: body) =
          .ok (.pushC1 (body.take dlen.toNat) ((body.drop dlen.toNat).map (· == 0x01#8))) := by
        rw [decode_push, decodePush_cons, if_neg (not_not.2 hlen), if_neg (by simpa using hres)]
      rw [decodeFor_of_ok n hdec]
      split
      · next hw =>
        have hsize := Machine.wellSized_pushC1_iff.1 hw
        simp only [List.length_take, List.length_map, List.length_drop] at hsize
        rw [if_neg (by omega)]
      · next hw =>
        rw [Bool.not_eq_true, Machine.wellSized_pushC1_eq_false_iff] at hw
        simp only [List.length_take, List.length_map, List.length_drop] at hw
        rw [if_pos (by omega)]

/-- The flags of a push frame byte by byte: bit 0 of a flag byte that is not reserved (R64). -/
theorem beq_one_eq_getLsbD {b : Byte} (h : b.toNat ≤ 1) : (b == 0x01#8) = b.getLsbD 0 := by
  have hb : b = 0x00#8 ∨ b = 0x01#8 := by bv_omega
  rcases hb with rfl | rfl <;> rfl

theorem take_eq_map_range {α : Type} {l : List α} {n : Nat} (d : α) (h : n ≤ l.length) :
    l.take n = (List.range n).map fun p => l.getD p d := by
  refine List.ext_getElem (by simp [h]) fun p hp _ => ?_
  have hpl : p < l.length := by rw [List.length_take] at hp; omega
  simp [hpl]

/-- R69's test for reserved flag bytes, by their offsets in the frame. -/
theorem exists_reserved_iff {body : Frame} {dlen flen : Nat} (h : body.length = dlen + flen) :
    (∃ b ∈ body.drop dlen, 0x01 < b.toNat) ↔
      ∃ q < flen, 0x01 < (body.getD (dlen + q) 0#8).toNat := by
  constructor
  · rintro ⟨b, hb, hres⟩
    obtain ⟨q, hq, rfl⟩ := List.getElem_of_mem hb
    rw [List.length_drop] at hq
    refine ⟨q, by omega, ?_⟩
    rwa [List.getD_eq_getElem _ _ (by omega), ← List.getElem_drop]
  · rintro ⟨q, hq, hres⟩
    rw [List.getD_eq_getElem _ _ (by omega)] at hres
    refine ⟨_, List.mem_drop_iff_getElem.2 ⟨q, by omega, rfl⟩, ?_⟩
    simpa [Nat.add_comm] using hres

/-- The flags that a push frame carries, by their offsets in the frame (R64, R66). -/
theorem flags_eq_map_range {body : Frame} {dlen flen : Nat} (h : body.length = dlen + flen)
    (hres : ¬ ∃ b ∈ body.drop dlen, 0x01 < b.toNat) :
    (body.drop dlen).map (· == 0x01#8) =
      (List.range flen).map fun p => (body.getD (dlen + p) 0#8).getLsbD 0 := by
  push Not at hres
  refine List.ext_getElem (by simp [h]) fun p hp hp' => ?_
  rw [List.length_map, List.length_drop] at hp
  rw [List.getElem_map, List.getElem_map, List.getElem_range, List.getD_eq_getElem _ _ (by omega),
    ← List.getElem_drop (h := by rw [List.length_drop]; omega)]
  exact beq_one_eq_getLsbD (hres _ (List.getElem_mem _))

/-- The decode function on a push frame, its operands by their offsets (R66, R69). -/
theorem decodeFor_push_by_offset (n : Nat) (dlen flen : Byte) (body : Frame) :
    decodeFor n (0x01#8 :: dlen :: flen :: body) =
      if body.length ≠ dlen.toNat + flen.toNat then .error .errFormat
      else if ∃ q < flen.toNat, 0x01 < (body.getD (dlen.toNat + q) 0#8).toNat then
        .error .errFormat
      else if dlen.toNat ≠ n ∨ flen.toNat ≠ n then .error .errLength
      else .ok (.pushC1 ((List.range n).map fun p => body.getD p 0#8)
        ((List.range n).map fun p => (body.getD (n + p) 0#8).getLsbD 0)) := by
  rw [decodeFor_push]
  by_cases hlen : body.length = dlen.toNat + flen.toNat
  · simp only [← exists_reserved_iff hlen]
    split
    · rfl
    · split
      · rfl
      · next hres =>
        split
        · rfl
        · next hsize =>
          push Not at hsize
          obtain ⟨hd, hf⟩ := hsize
          rw [take_eq_map_range 0#8 (by omega), flags_eq_map_range hlen hres, hd, hf]
  · rw [if_pos hlen, if_pos hlen]

/-- Settles O1: `decode_encode`. -/
theorem decodeOfEncodedCommand : Obligations.DecodeOfEncodedCommand := fun _ h => decode_encode h

/-- Settles O2: `encode_of_decode`. -/
theorem encodeOfDecodedFrame : Obligations.EncodeOfDecodedFrame := fun _ _ h => encode_of_decode h

/-- Settles O3: each frame is decoded by evaluation. -/
theorem sampleFramesDecode : Obligations.SampleFramesDecode := by
  unfold Obligations.SampleFramesDecode
  decide

/-- Settles O4: the decode function is read off for each class of frame, and the operands of a push
by their offsets. -/
theorem decodeFunctionInOrder : Obligations.DecodeFunctionInOrder := by
  intro n F
  match F with
  | [] => rfl
  | op :: rest =>
    have hne : (op :: rest).length ≠ 0 := by simp
    rw [if_neg hne, List.getD_cons_zero]
    by_cases hpush : op = 0x01#8
    · subst hpush
      rw [if_neg (by decide), if_neg (by decide)]
      match rest with
      | [] => rfl
      | [_] => rfl
      | dlen :: flen :: body =>
        have hoff : ∀ k, (0x01#8 :: dlen :: flen :: body).getD (3 + k) 0#8 = body.getD k 0#8 := by
          intro k; rw [Nat.add_comm]; rfl
        have hlen : (0x01#8 :: dlen :: flen :: body).length = 3 + (dlen.toNat + flen.toNat) ↔
            body.length = dlen.toNat + flen.toNat := by
          simp only [List.length_cons]; omega
        have hlong : ¬ (0x01#8 :: dlen :: flen :: body).length < 3 := by simp
        rw [decodeFor_push_by_offset, if_neg hlong]
        simp only [List.getD_cons_succ, List.getD_cons_zero, ne_eq, Nat.add_assoc 3, hoff, hlen]
    · cases hz : formatZ op with
      | none =>
        have hill : op.toNat < 1 ∨ 8 < op.toNat := by
          have := (formatZ_eq_none_iff_illegal hpush).1 hz
          bv_omega
        rw [decodeFor_of_error n (decode_illegal rest hpush hz), if_pos hill]
      | some i =>
        have hlegal : ¬ (op.toNat < 1 ∨ 8 < op.toNat) := by
          have hnot : ¬ (op.toNat < 2 ∨ 8 < op.toNat) := fun h => by
            simp [formatZ_eq_none.2 h] at hz
          omega
        rw [decodeFor_formatZ n rest hz, if_neg hlegal, if_pos hpush]
        by_cases hrest : rest = []
        · rw [if_pos hrest, if_neg (by simp [hrest]), ok_formatZ_eq_chain hz]
        · rw [if_neg hrest, if_pos (by simpa using hrest)]

/-! ### Fields of responses -/

theorem leBytes_succ (k v : Nat) :
    leBytes (k + 1) v = BitVec.ofNat 8 v :: leBytes k (v / 256) := by
  simp [leBytes, List.range_succ_eq_map, pow_succ', Nat.div_div_eq_div_mul]

/-- Read back with the byte at offset `b` weighted by `256^b`, a field gives its value (R43). -/
theorem foldr_leBytes {k v : Nat} (h : v < 256 ^ k) :
    (leBytes k v).foldr (fun b acc => b.toNat + 256 * acc) 0 = v := by
  induction k generalizing v with
  | zero => simp at h; simp [leBytes, h]
  | succ k ih =>
    have hdiv : v / 256 < 256 ^ k := Nat.div_lt_of_lt_mul (by rwa [← pow_succ'])
    rw [leBytes_succ, List.foldr_cons, ih hdiv, BitVec.toNat_ofNat]
    exact Nat.mod_add_div v 256

/-- Settles O18: `leBytes_length` and `foldr_leBytes`. -/
theorem fieldsAreLittleEndian : Obligations.FieldsAreLittleEndian :=
  fun k v h => ⟨leBytes_length k v, foldr_leBytes h⟩

end Sys2Proof

namespace Sys2Proof.Machine

theorem responseBytes_data {cfg : Config} {d : List Byte} (h : d.length < 2 ^ 32) :
    responseBytes cfg ⟨.ok, .data d⟩ = some (0x00#8 :: (leBytes 4 d.length ++ d)) := by
  rw [responseBytes, payloadBytes, if_pos h]
  rfl

theorem responseBytes_flags {cfg : Config} {f : List Bool} (h : f.length < 2 ^ 32) :
    responseBytes cfg ⟨.ok, .flags f⟩ =
      some (0x00#8 :: (leBytes 4 f.length ++ f.map flagByte)) := by
  rw [responseBytes, payloadBytes, if_pos h]
  rfl

/-- A count that does not fit four bytes has no frame (93_implementation_defined.md U8). -/
theorem responseBytes_data_eq_none {cfg : Config} {d : List Byte} (h : 2 ^ 32 ≤ d.length) :
    responseBytes cfg ⟨.ok, .data d⟩ = none := by
  rw [responseBytes, payloadBytes, if_neg (not_lt.2 h)]
  rfl

theorem responseBytes_flags_eq_none {cfg : Config} {f : List Bool} (h : 2 ^ 32 ≤ f.length) :
    responseBytes cfg ⟨.ok, .flags f⟩ = none := by
  rw [responseBytes, payloadBytes, if_neg (not_lt.2 h)]
  rfl

end Sys2Proof.Machine

namespace Sys2Proof

open Machine

/-- Settles O19: one lemma per payload. -/
theorem responseFrameLayout : Obligations.ResponseFrameLayout := by
  intro cfg
  exact ⟨⟨rfl, rfl, rfl, rfl, rfl, rfl⟩, fun d hd => responseBytes_data hd,
    fun f hf => responseBytes_flags hf, fun c => responseBytes_counters cfg c,
    fun d f hd hf => ⟨responseBytes_data_eq_none hd, responseBytes_flags_eq_none hf⟩⟩

/-- Settles O5: the decode function answers what the decoder answers, except that a push that is not
well-sized gets ERR_LENGTH, which is also what performing it answers. -/
theorem commandFollowsDecodeFunction : Obligations.CommandFollowsDecodeFunction := by
  intro F s
  cases hdec : decode F with
  | error st =>
    rw [decodeFor_of_error _ hdec, command_of_error s hdec]
    exact ⟨by simp, fun _ h => by rw [Except.error.inj h]; rfl⟩
  | ok i =>
    rw [decodeFor_of_ok _ hdec, command_of_ok s hdec]
    split
    · exact ⟨fun _ h => by rw [Except.ok.inj h], by simp⟩
    · next hw =>
      refine ⟨by simp, fun _ h => ?_⟩
      rw [← Except.error.inj h]
      rcases decode_ok_cases hdec with ⟨op, -, hz⟩ | ⟨_, _, _, -, -, -, rfl⟩
      · exact absurd (wellSized_of_formatZ _ hz) hw
      · exact exec_pushC1_of_not_wellSized
          (wellSized_pushC1_eq_false_iff.1 ((Bool.not_eq_true _).mp hw))

end Sys2Proof
end

section
/-! Proofs about one step (spec/20_memory.md R50, R53; spec/10_state.md R24, R33;
spec/70_reset_and_hazards.md R242): what a frame leaves of the interface, the configuration and the
phase, that no command reads the command stream, and several blocks side by side. -/

namespace Sys2Proof.Machine

/-! ### What a frame leaves unchanged -/

theorem command_inbox {F : Frame} {s t : State} (h : command F s = .next t) :
    t.inbox = s.inbox := by
  rcases command_cases h with ⟨i, -, -, rfl⟩ | ⟨st, -, rfl⟩ <;> simp

theorem command_cfg {F : Frame} {s t : State} (h : command F s = .next t) : t.cfg = s.cfg := by
  rcases command_cases h with ⟨i, -, -, rfl⟩ | ⟨st, -, rfl⟩ <;> simp

/-- Inversion of a step: nothing happens, or the next frame is performed (R50). -/
theorem step_cases {s t : State} (h : step s = .next t) :
    (s.inbox = [] ∧ t = s) ∨
      ∃ F rest, s.inbox = F :: rest ∧ command F { s with inbox := rest } = .next t := by
  cases hin : s.inbox with
  | nil =>
    rw [step_nil hin] at h
    exact .inl ⟨rfl, (Host.Outcome.next.inj h).symm⟩
  | cons F rest =>
    rw [step_cons hin] at h
    exact .inr ⟨F, rest, rfl, h⟩

/-- The phase after a command: a flush enters `FLUSHED`, a reset `RUN` (R24). -/
theorem performed_phase (i : Instr) (s : State) :
    (performed i s).phase =
      if i = .flush then .flushed else if i = .reset then .run else s.phase := by
  cases i with
  | pushC1 data flags => cases hp : s.primed <;> simp [performed, hp]
  | _ => simp [performed]

/-! ### No command reads the command stream -/

theorem performed_withInbox (i : Instr) (s : State) (b : List Frame) :
    performed i { s with inbox := b } = { performed i s with inbox := b } := by
  cases i with
  | pushC1 data flags =>
    have hp : State.primed { s with inbox := b } = s.primed := rfl
    unfold performed
    rw [hp]
    cases s.primed <;> rfl
  | flush =>
    simp only [performed, State.flushAll_eq]
    rfl
  | pullData => rfl
  | pullErr => rfl
  | resetStats => rfl
  | getStats => rfl
  | reportStatus => rfl
  | reset => rfl

theorem accepts_withInbox (i : Instr) (s : State) (b : List Frame) :
    accepts i { s with inbox := b } = accepts i s := by cases i <;> rfl

theorem answer_withInbox (i : Instr) (s : State) (b : List Frame) :
    answer i { s with inbox := b } = answer i s := by cases i <;> rfl

theorem refusal_withInbox (i : Instr) (s : State) (b : List Frame) :
    refusal i { s with inbox := b } = refusal i s := by cases i <;> rfl

/-- A frame is performed the same whatever waits behind it (R242). -/
theorem command_withInbox {F : Frame} {s t : State} (b : List Frame) (h : command F s = .next t) :
    command F { s with inbox := b } = .next { t with inbox := b } := by
  cases hdec : decode F with
  | error st =>
    rw [command_of_error _ hdec] at h ⊢
    obtain rfl := Host.Outcome.next.inj h
    rfl
  | ok i =>
    rw [command_of_ok _ hdec] at h ⊢
    rcases exec_cases h with ⟨ha, rfl⟩ | ⟨ha, rfl⟩
    · rw [exec_accepted ((accepts_withInbox i s b).trans ha), performed_withInbox,
        answer_withInbox]
      rfl
    · rw [exec_refused ((accepts_withInbox i s b).trans ha), refusal_withInbox]
      rfl

/-- With `Fs` waiting, as many steps as frames perform the frames one after another (R242). -/
theorem run_eq_runFrames (Fs : List Frame) (s : State) (hs : s.inbox = []) :
    Sys2Proof.core.run Fs.length { s with inbox := Fs } = runFrames Fs s := by
  induction Fs generalizing s with
  | nil =>
    exact congrArg Host.Outcome.next (show { s with inbox := [] } = s by rw [← hs])
  | cons F rest ih =>
    obtain ⟨t, ht⟩ := command_next F s
    have hcmd : command F { s with inbox := rest } = .next { t with inbox := rest } :=
      command_withInbox rest ht
    have hstep : Sys2Proof.core.step { s with inbox := F :: rest } =
        .next { t with inbox := rest } :=
      (step_cons (s := { s with inbox := F :: rest }) rfl).trans hcmd
    have htail : t.inbox = [] := (command_inbox ht).trans hs
    simp only [List.length_cons, Host.Core.run, hstep, runFrames, ht]
    exact ih t htail

/-! ### Several blocks -/

/-- A step of block `k` replaces that block by its own next state (R33). -/
theorem stepBlock_cases {k : Nat} {bs bs' : List State} (h : stepBlock k bs = .next bs') :
    (bs[k]? = none ∧ bs' = bs) ∨
      ∃ s t, bs[k]? = some s ∧ step s = .next t ∧ bs' = bs.set k t := by
  unfold stepBlock at h
  cases hk : bs[k]? with
  | none =>
    rw [hk] at h
    exact .inl ⟨rfl, (Host.Outcome.next.inj h).symm⟩
  | some s =>
    obtain ⟨t, ht⟩ := step_next s
    simp only [hk, ht] at h
    exact .inr ⟨s, t, rfl, ht, (Host.Outcome.next.inj h).symm⟩

/-- A step of block `k` keeps the number of blocks and every other block (R33). -/
theorem stepBlock_frame {k : Nat} {bs bs' : List State} (h : stepBlock k bs = .next bs') :
    bs'.length = bs.length ∧ ∀ j, j ≠ k → bs'[j]? = bs[j]? := by
  rcases stepBlock_cases h with ⟨-, rfl⟩ | ⟨s, t, -, -, rfl⟩
  · exact ⟨rfl, fun _ _ => rfl⟩
  · exact ⟨List.length_set, fun j hj => List.getElem?_set_ne hj.symm⟩

/-- What block `k` becomes is a function of that block (R33). -/
theorem stepBlock_local {k : Nat} {bs cs bs' cs' : List State} (hb : stepBlock k bs = .next bs')
    (hc : stepBlock k cs = .next cs') (hk : bs[k]? = cs[k]?) : bs'[k]? = cs'[k]? := by
  rcases stepBlock_cases hb with ⟨hbk, rfl⟩ | ⟨s, t, hbk, hst, rfl⟩ <;>
    rcases stepBlock_cases hc with ⟨hck, rfl⟩ | ⟨s', t', hck, hst', rfl⟩
  · exact hk
  · simp [hbk, hck] at hk
  · simp [hbk, hck] at hk
  · obtain rfl : s = s' := by simpa [hbk, hck] using hk
    obtain rfl : t = t' := Host.Outcome.next.inj (hst.symm.trans hst')
    have hlt := (List.getElem?_eq_some_iff.1 hbk).1
    have hlt' := (List.getElem?_eq_some_iff.1 hck).1
    rw [List.getElem?_set_self hlt, List.getElem?_set_self hlt']

end Sys2Proof.Machine

namespace Sys2Proof

open Machine

/-- Settles O6: `step_cons`, then the frame by its decoding. -/
theorem stepRunsDecodedCommand : Obligations.StepRunsDecodedCommand := by
  intro s F rest hin
  rw [step_cons hin]
  exact ⟨fun i hdec => command_of_ok _ hdec, fun st hdec => command_of_error _ hdec⟩

/-- Settles O7: `step_nil`. -/
theorem idleBlockDoesNothing : Obligations.IdleBlockDoesNothing := fun _ h => step_nil h

/-- Settles O8: the frame is answered once by `command_answers`, and no command writes the command
stream. -/
theorem eachFrameAnsweredOnce : Obligations.EachFrameAnsweredOnce := by
  intro s F rest hin
  obtain ⟨t, r, ht, hout, -⟩ := command_answers F { s with inbox := rest }
  exact ⟨t, r, (step_cons hin).trans ht, command_inbox ht, hout⟩

/-- Settles O9: `run_eq_runFrames`. -/
theorem runIsOneStepPerFrame : Obligations.RunIsOneStepPerFrame := run_eq_runFrames

/-- Settles O51: no frame changes the configuration, and taking one does not either. -/
theorem configurationNeverChanges : Obligations.ConfigurationNeverChanges := by
  intro s t h
  rcases step_cases h with ⟨-, rfl⟩ | ⟨F, rest, -, h⟩
  · rfl
  · exact command_cfg (s := { s with inbox := rest }) h

/-- Settles O52: by `performed_phase` only an accepted flush or reset changes the phase, and its
frame is the encoding of the command. -/
theorem onlyFlushAndResetChangePhase : Obligations.OnlyFlushAndResetChangePhase := by
  intro F s t h hne
  rcases command_cases h with ⟨i, hdec, -, rfl⟩ | ⟨st, -, rfl⟩
  · have hF := (encode_of_decode hdec).2
    rw [State.reply_phase, performed_phase] at hne ⊢
    by_cases hflush : i = .flush
    · subst hflush
      exact .inl ⟨hF.symm, rfl⟩
    · by_cases hreset : i = .reset
      · subst hreset
        exact .inr ⟨hF.symm, rfl⟩
      · simp [hflush, hreset] at hne
  · exact absurd rfl hne

/-- Settles O59: `stepBlock_frame` and `stepBlock_local`. -/
theorem otherBlocksUntouched : Obligations.OtherBlocksUntouched := by
  intro k bs cs bs' cs' hb hc hk
  obtain ⟨hlen, hother⟩ := stepBlock_frame hb
  exact ⟨hlen, hother, stepBlock_local hb hc hk⟩

end Sys2Proof
end

section
/-! What an accepted command does to each field of the state, in terms of the codewords it emits
(spec/43_orchestrator.md R161 to R168, spec/44_fifo_flush.md R182 to R188). -/

namespace Sys2Proof.Machine

/-! ### When a push or a flush is accepted -/

theorem accepts_pushC1_iff {data : List Byte} {flags : List Bool} {s : State} :
    accepts (.pushC1 data flags) s = true ↔
      (data.length = s.cfg.nSym ∧ flags.length = s.cfg.nSym) ∧ s.phase = .run ∧
        (s.fill = s.cfg.dmax → s.room s.cfg.nSym = true) := by
  rw [accepts, Bool.and_eq_true, Bool.and_eq_true, wellSized_pushC1_iff, beq_iff_eq,
    Bool.or_eq_true, Bool.not_eq_true', ← Bool.not_eq_true, State.primed_iff, and_assoc,
    imp_iff_not_or]

theorem accepts_flush_iff {s : State} :
    accepts .flush s = true ↔ s.room (s.fill * s.cfg.nSym) = true := Iff.rfl

/-! ### The emissions of a command -/

theorem emissions_of_accepts {i : Instr} {s : State} (h : accepts i s = true) :
    emissions i s = (emittedCodewords i s).map fun x => emission s.cfg x.1 x.2 := if_pos h

theorem emissions_of_refused {i : Instr} {s : State} (h : accepts i s = false) :
    emissions i s = [] := by simp [emissions, h]

theorem emissions_pushC1 {data : List Byte} {flags : List Bool} {s : State}
    (h : accepts (.pushC1 data flags) s = true) :
    emissions (.pushC1 data flags) s =
      if s.primed then [emission s.cfg (s.tap (symbols data flags)) []] else [] := by
  rw [emissions_of_accepts h, emittedCodewords]
  split <;> rfl

theorem emissions_flush {s : State} (h : accepts .flush s = true) :
    emissions .flush s = (List.range s.fill).map (s.flushEmission s.fill) := by
  rw [emissions_of_accepts h, emittedCodewords, List.map_map]
  rfl

/-- Every emission has `n` bytes and `n` flags (R162). -/
theorem emissions_length {i : Instr} {s : State} {e : Emission} (he : e ∈ emissions i s) :
    e.od.length = s.cfg.nSym ∧ e.oe.length = s.cfg.nSym := by
  have hsize : ∀ (tap : List Symbol) (miss : List Nat), tap.length = s.cfg.nSym →
      (emission s.cfg tap miss).od.length = s.cfg.nSym ∧
        (emission s.cfg tap miss).oe.length = s.cfg.nSym := fun tap miss h =>
    ⟨emission_od_length miss h, (emission_oe_length ..).trans h⟩
  cases ha : accepts i s with
  | false => simp [emissions_of_refused ha] at he
  | true =>
    rw [emissions_of_accepts ha] at he
    obtain ⟨x, hx, rfl⟩ := List.mem_map.1 he
    refine hsize _ _ ?_
    cases i with
    | pushC1 data flags =>
      rw [emittedCodewords] at hx
      split at hx
      · rw [List.mem_singleton.1 hx, State.tap_length]
      · simp at hx
    | flush =>
      obtain ⟨u, -, rfl⟩ := List.mem_map.1 hx
      exact State.ftap_length ..
    | _ => simp [emittedCodewords] at hx

/-- An accepted command has room for what it emits (R161, R181, R185). -/
theorem room_of_accepts {i : Instr} {s : State} (h : accepts i s = true)
    (h0 : s.room 0 = true) : s.room ((emissions i s).length * s.cfg.nSym) = true := by
  cases i with
  | pushC1 data flags =>
    rw [emissions_pushC1 h]
    cases hp : s.primed with
    | false => simpa using h0
    | true => simpa using (accepts_pushC1_iff.1 h).2.2 (State.primed_iff.1 hp)
  | flush => simpa [emissions_flush h] using accepts_flush_iff.1 h
  | _ => simpa [emissions, emittedCodewords] using h0

/-! ### Field by field -/

theorem performed_fill (i : Instr) (s : State) :
    (performed i s).fill =
      match i with
      | .pushC1 _ _ => min (s.fill + 1) s.cfg.dmax
      | .flush => 0
      | .reset => 0
      | _ => s.fill := by
  cases i with
  | pushC1 data flags => cases hp : s.primed <;> simp [performed, hp]
  | _ => simp [performed]

theorem performed_diag (i : Instr) (s : State) :
    (performed i s).diag = if i = .reportStatus then s.diag ++ [s.cnt] else s.diag := by
  cases i with
  | pushC1 data flags => cases hp : s.primed <;> simp [performed, hp]
  | flush => simp [performed, State.flushAll_eq]
  | _ => simp [performed]

/-- The data FIFO grows by the bytes emitted, unless the command empties it (R162, R182, R188). -/
theorem performed_qd {i : Instr} {s : State} (h : accepts i s = true) :
    (performed i s).qd =
      if i = .pullData ∨ i = .reset then [] else s.qd ++ (emissions i s).flatMap Emission.od := by
  cases i with
  | pushC1 data flags =>
    rw [emissions_pushC1 h]
    cases hp : s.primed <;> simp [performed, hp]
  | flush => simp [performed, emissions_flush h, State.flushAll_eq, List.flatMap_map]
  | _ => simp [performed, emissions, emittedCodewords]

/-- The flag FIFO grows by the flags emitted, unless the command empties it (R162, R183, R188). -/
theorem performed_qe {i : Instr} {s : State} (h : accepts i s = true) :
    (performed i s).qe =
      if i = .pullErr ∨ i = .reset then [] else s.qe ++ (emissions i s).flatMap Emission.oe := by
  cases i with
  | pushC1 data flags =>
    rw [emissions_pushC1 h]
    cases hp : s.primed <;> simp [performed, hp]
  | flush => simp [performed, emissions_flush h, State.flushAll_eq, List.flatMap_map]
  | _ => simp [performed, emissions, emittedCodewords]

/-- The counters after the emissions `es` have been counted (R164). -/
def Counters.countAll (cmax : Nat) (es : List Emission) (c : Counters) : Counters :=
  es.foldl (fun c e => c.bump cmax e.outcome) c

/-- The counters count the emissions, unless the command clears them (R164, R165, R188). -/
theorem performed_cnt {i : Instr} {s : State} (h : accepts i s = true) :
    (performed i s).cnt =
      if i = .resetStats ∨ i = .reset then Counters.zero
      else s.cnt.countAll s.cfg.cmax (emissions i s) := by
  cases i with
  | pushC1 data flags =>
    rw [emissions_pushC1 h]
    cases hp : s.primed <;> simp [performed, hp, Counters.countAll]
  | flush =>
    simp [performed, emissions_flush h, State.flushAll_eq, Counters.countAll, List.foldl_map]
  | _ => simp [performed, emissions, emittedCodewords, Counters.countAll]

/-! ### The bank after a push -/

/-- A push is a `SHIFT` of a state with the same bank (R161). -/
theorem performed_pushC1_bank (data : List Byte) (flags : List Bool) (s : State) :
    ∃ u : State, performed (.pushC1 data flags) s = u.shift (symbols data flags) ∧
      u.cfg = s.cfg ∧ u.cells = s.cells := by
  cases hp : s.primed with
  | false => exact ⟨s, by simp [performed, hp], rfl, rfl⟩
  | true => exact ⟨s.emit (s.tap (symbols data flags)) [], by simp [performed, hp], rfl, rfl⟩

theorem State.cell_congr {s t : State} (h : t.cells = s.cells) (i j : Nat) :
    t.cell i j = s.cell i j := by
  unfold State.cell State.line
  rw [h]

/-- Cells after a push: the symbol pushed in stage 0, every stage moved up by one (R143, R161). -/
theorem performed_pushC1_cell (data : List Byte) (flags : List Bool) {s : State} {i j : Nat}
    (hi : i < s.cfg.nSym) (hj : j < s.cfg.lineLen i) :
    (performed (.pushC1 data flags) s).cell i j =
      if j = 0 then (symbols data flags).getD i Symbol.vacant else s.cell i (j - 1) := by
  obtain ⟨u, hu, hcfg, hcells⟩ := performed_pushC1_bank data flags s
  rw [hu, State.shift_cell _ (by rwa [hcfg]) (by rwa [hcfg]), State.cell_congr hcells]

/-- A flush and a reset leave the cells that `CLEAR` leaves (R151). -/
theorem performed_cells_of_clear {i : Instr} (s : State) (h : i = .flush ∨ i = .reset) :
    (performed i s).cells = s.clearBank.cells := by
  rcases h with rfl | rfl
  · simp [performed, State.flushAll_eq]
  · rfl

/-- Every command keeps the shape of the bank (R21). -/
theorem performed_bankShape (i : Instr) {s : State} (h : s.BankShape) :
    (performed i s).BankShape := by
  cases i with
  | pushC1 data flags =>
    obtain ⟨u, hu, hcfg, hcells⟩ := performed_pushC1_bank data flags s
    rw [hu]
    exact State.shift_bankShape _ (State.bankShape_of_cells hcfg hcells h)
  | flush =>
    exact State.bankShape_of_cells (s := s.clearBank) (performed_cfg ..)
      (performed_cells_of_clear s (.inl rfl)) s.clearBank_bankShape
  | reset =>
    exact State.bankShape_of_cells (s := s.clearBank) (performed_cfg ..)
      (performed_cells_of_clear s (.inr rfl)) s.clearBank_bankShape
  | _ => exact h

end Sys2Proof.Machine
end

section
/-! Proofs about the single commands (spec/42_deinterleaver.md R142, R143; spec/43_orchestrator.md
R161 to R167; spec/44_fifo_flush.md R181 to R188; spec/60_exceptions.md R206). -/

namespace Sys2Proof.Machine

/-! ### Room and refusal -/

/-- With a finite `QCAP` there is no room when one FIFO cannot take the elements (R29). -/
theorem State.room_eq_false {s : State} {q x : Nat} (hq : s.cfg.qcap = some q)
    (h : q < s.qd.length + x ∨ q < s.qe.length + x) : s.room x = false := by
  rw [← Bool.not_eq_true, State.room_iff]
  intro hroom
  have := hroom q hq
  omega

/-- Empty FIFOs have room for a codeword, since `QCAP ≥ n` (R7, R206). -/
theorem State.room_of_empty {s : State} (hd : s.qd = []) (he : s.qe = []) :
    s.room s.cfg.nSym = true := by
  obtain ⟨-, -, -, -, -, hqcap, -⟩ := s.cfg.wf_iff.1 s.cfgOk
  rw [State.room_iff]
  intro q hq
  simpa [hd, he] using hqcap q hq

/-- A push without room is refused with ERR_FULL (R206 a). -/
theorem exec_pushC1_of_full {data : List Byte} {flags : List Bool} {s : State}
    (hd : data.length = s.cfg.nSym) (hf : flags.length = s.cfg.nSym) (hp : s.phase = .run)
    (hfill : s.fill = s.cfg.dmax) (hroom : s.room s.cfg.nSym = false) :
    exec (.pushC1 data flags) s = .next (s.reply ⟨.errFull, .none⟩) := by
  have ha : accepts (.pushC1 data flags) s = false := by
    rw [← Bool.not_eq_true, accepts_pushC1_iff, hroom]
    exact fun h => Bool.false_ne_true (h.2.2 hfill)
  have hw : (Instr.pushC1 data flags).wellSized s.cfg.nSym = true :=
    wellSized_pushC1_iff.2 ⟨hd, hf⟩
  rw [exec_refused ha]
  simp [refusal, hw, hp]

/-! ### The bank after a well-sized push -/

/-- Cells after a well-sized push, by the bytes and flags pushed (R66, R143). -/
theorem performed_pushC1_cell_of_wellSized {data : List Byte} {flags : List Bool} {s : State}
    (hd : data.length = s.cfg.nSym) (hf : flags.length = s.cfg.nSym) :
    ∀ i < s.cfg.nSym, ∀ j < s.cfg.lineLen i,
      (performed (.pushC1 data flags) s).cell i j =
        if j = 0 then ⟨data.getD i 0#8, flags.getD i false⟩ else s.cell i (j - 1) := by
  intro i hi j hj
  rw [performed_pushC1_cell data flags hi hj, symbols_getD (hd ▸ hi) (hf ▸ hi)]

/-- The codeword tapped by a well-sized push, by the bytes and flags pushed (R66, R142). -/
theorem tap_symbols {data : List Byte} {flags : List Bool} {s : State}
    (hd : data.length = s.cfg.nSym) (hf : flags.length = s.cfg.nSym) :
    s.tap (symbols data flags) = (List.range s.cfg.nSym).map fun i =>
      if s.cfg.lineLen i = 0 then ⟨data.getD i 0#8, flags.getD i false⟩
      else s.cell i (s.cfg.lineLen i - 1) := by
  refine List.map_congr_left fun i hi => ?_
  rw [List.mem_range] at hi
  rw [symbols_getD (hd ▸ hi) (hf ▸ hi)]

/-- A push on a bank that is not primed is a `SHIFT` and nothing else (R161). -/
theorem performed_pushC1_of_not_primed (data : List Byte) (flags : List Bool) {s : State}
    (h : s.fill < s.cfg.dmax) :
    performed (.pushC1 data flags) s = { s with
      cells := (performed (.pushC1 data flags) s).cells
      fill := s.fill + 1 } := by
  have hp : s.primed = false := by
    rw [← Bool.not_eq_true, State.primed_iff]
    omega
  have hfill : min (s.fill + 1) s.cfg.dmax = s.fill + 1 := by omega
  simp only [performed, hp, State.shift, hfill, Bool.false_eq_true, if_false]

/-- A push on a primed bank is a `SHIFT` and the emission of the tapped codeword (R161, R162). -/
theorem performed_pushC1_of_primed (data : List Byte) (flags : List Bool) {s : State}
    (h : s.fill = s.cfg.dmax) :
    let e := emission s.cfg (s.tap (symbols data flags)) []
    performed (.pushC1 data flags) s = { s with
      cells := (performed (.pushC1 data flags) s).cells
      qd := s.qd ++ e.od
      qe := s.qe ++ e.oe
      cnt := s.cnt.bump s.cfg.cmax e.outcome } := by
  have hp : s.primed = true := State.primed_iff.2 h
  have hfill : min (s.fill + 1) s.cfg.dmax = s.fill := by omega
  simp only [performed, hp, if_true, State.shift, State.emit_fill, State.emit_cfg, hfill]
  rfl

/-! ### Flush codewords -/

/-- Every codeword of a flush has a missing position, that of the largest delay (R150, R186). -/
theorem ftapMiss_ne_nil {cfg : Config} (hc : cfg.wf = true) {F : Nat} (hF : F ≤ cfg.dmax)
    (u : Nat) : ftapMiss cfg F u ≠ [] := by
  obtain ⟨i, hi, hmax⟩ := Config.exists_d_eq_dmax hc
  exact List.ne_nil_of_mem (mem_ftapMiss.2 ⟨hi, by omega⟩)

/-- Every emission of a flush is `Flushed`, with all flags 1 (R186). -/
theorem emissions_flush_flushed {s : State} (hfill : s.fill ≤ s.cfg.dmax) {e : Emission}
    (he : e ∈ emissions .flush s) :
    e.outcome = .flushed ∧ e.oe = List.replicate s.cfg.nSym true := by
  cases ha : accepts .flush s with
  | false => simp [emissions_of_refused ha] at he
  | true =>
    rw [emissions_flush ha] at he
    obtain ⟨u, -, rfl⟩ := List.mem_map.1 he
    rw [State.flushEmission, emission_of_missing (ftapMiss_ne_nil s.cfgOk hfill u)]
    exact ⟨rfl, by rw [List.map_const', State.ftap_length]⟩

theorem flatMap_replicate {α β : Type} {l : List α} {f : α → List β} {n : Nat} {x : β}
    (h : ∀ a ∈ l, f a = List.replicate n x) :
    l.flatMap f = List.replicate (l.length * n) x := by
  induction l with
  | nil => simp
  | cons a l ih =>
    rw [List.forall_mem_cons] at h
    rw [List.flatMap_cons, h.1, ih h.2, List.replicate_append_replicate, List.length_cons,
      Nat.succ_mul, Nat.add_comm]

theorem length_flatMap {α β : Type} {l : List α} {f : α → List β} {n : Nat}
    (h : ∀ a ∈ l, (f a).length = n) : (l.flatMap f).length = l.length * n := by
  induction l with
  | nil => simp
  | cons a l ih =>
    rw [List.forall_mem_cons] at h
    rw [List.flatMap_cons, List.length_append, h.1, ih h.2, List.length_cons, Nat.succ_mul,
      Nat.add_comm]

theorem emissions_flush_length {s : State} (h : accepts .flush s = true) :
    (emissions .flush s).length = s.fill := by simp [emissions_flush h]

/-- Counting flushed codewords moves that counter alone, with saturation (R26, R186). -/
theorem countAll_flushed {cmax : Nat} {es : List Emission} {c : Counters}
    (hes : ∀ e ∈ es, e.outcome = .flushed) (hc : c.flushed ≤ cmax) :
    c.countAll cmax es = { c with flushed := min (c.flushed + es.length) cmax } := by
  induction es generalizing c with
  | nil => simp [Counters.countAll, hc]
  | cons e es ih =>
    rw [List.forall_mem_cons] at hes
    have hstep : c.countAll cmax (e :: es) = (c.bump cmax .flushed).countAll cmax es := by
      rw [Counters.countAll, List.foldl_cons, hes.1, Counters.countAll]
    have hsat : min (saturatingIncr cmax c.flushed + es.length) cmax =
        min (c.flushed + (es.length + 1)) cmax := by
      unfold saturatingIncr
      omega
    rw [hstep, ih hes.2 (saturatingIncr_le ..), Counters.bump_flushed, List.length_cons, hsat]

end Sys2Proof.Machine

namespace Sys2Proof

open Machine

/-- Settles O14: without room neither command is accepted, and both are refused with ERR_FULL. -/
theorem lackOfRoomRefused : Obligations.LackOfRoomRefused := by
  intro s q hq
  refine ⟨fun data flags hd hf hp hfill hroom =>
    exec_pushC1_of_full hd hf hp hfill (State.room_eq_false hq hroom), fun hroom => ?_⟩
  exact exec_refused (i := .flush) (State.room_eq_false hq hroom)

/-- Settles O15: empty FIFOs have room for `n ≤ QCAP` elements. -/
theorem pushSucceedsOnceDrained : Obligations.PushSucceedsOnceDrained := by
  intro s data flags hd hf hp hqd hqe
  have ha : accepts (.pushC1 data flags) s = true :=
    accepts_pushC1_iff.2 ⟨⟨hd, hf⟩, hp, fun _ => State.room_of_empty hqd hqe⟩
  exact ⟨_, exec_accepted ha, by rw [State.reply_outbox, performed_outbox]; rfl⟩

/-- Settles O20: the command's effect is `emptyQd`. -/
theorem pullDataReturnsWholeQueue : Obligations.PullDataReturnsWholeQueue := fun s =>
  ⟨exec_accepted (i := .pullData) rfl, command_formatZ s rfl, responseBytes_data⟩

/-- Settles O21: the command's effect is `emptyQe`. -/
theorem pullErrReturnsWholeQueue : Obligations.PullErrReturnsWholeQueue := fun s =>
  ⟨exec_accepted (i := .pullErr) rfl, command_formatZ s rfl, responseBytes_flags⟩

/-- Settles O24: the command's effect is `logDiag`. -/
theorem reportStatusOnlyWritesDiagnostics : Obligations.ReportStatusOnlyWritesDiagnostics :=
  fun s => ⟨exec_accepted (i := .reportStatus) rfl, command_formatZ s rfl, rfl⟩

/-- Settles O25: the effects of a reset, field by field, are the fields of power-on. -/
theorem resetCommandEqualsPowerOn : Obligations.ResetCommandEqualsPowerOn := fun s =>
  ⟨exec_accepted (i := .reset) rfl, command_formatZ s rfl⟩

/-- Settles O26: the bank by `powerOn_bankShape` and `powerOn_cell`, the rest by evaluation. -/
theorem powerOnState : Obligations.PowerOnState := by
  refine ⟨fun cfg hc => ?_, rfl, rfl, Config.default_dmax, rfl, rfl, rfl, rfl, rfl⟩
  obtain ⟨hlines, hline⟩ := State.powerOn_bankShape cfg hc
  exact ⟨rfl, hlines, hline, fun i hi j _ => State.powerOn_cell hc j hi, rfl, rfl, rfl, rfl, rfl⟩

/-- Settles O27: the push is accepted whatever the FIFOs hold, and is a `SHIFT`. -/
theorem primingPushOnlyShifts : Obligations.PrimingPushOnlyShifts := by
  intro s data flags hd hf hp hfill
  have ha : accepts (.pushC1 data flags) s = true :=
    accepts_pushC1_iff.2 ⟨⟨hd, hf⟩, hp, fun h => absurd h hfill.ne⟩
  refine ⟨_, exec_accepted ha, ?_, performed_pushC1_cell_of_wellSized hd hf,
    performed_bankShape _⟩
  rw [performed_pushC1_of_not_primed data flags hfill]
  rfl

/-- Settles O28: the push is accepted, emits the tapped codeword and shifts. -/
theorem primedPushEmitsAndShifts : Obligations.PrimedPushEmitsAndShifts := by
  intro s data flags hd hf hp hfill hroom
  have ha : accepts (.pushC1 data flags) s = true :=
    accepts_pushC1_iff.2 ⟨⟨hd, hf⟩, hp, fun _ => hroom⟩
  rw [← tap_symbols hd hf]
  refine ⟨_, exec_accepted ha, ?_, performed_pushC1_cell_of_wellSized hd hf,
    performed_bankShape _⟩
  rw [performed_pushC1_of_primed data flags hfill]
  rfl

/-- Settles O29: the loop's emissions by `flushAll_eq`, then `CLEAR` and the phase. -/
theorem flushEmitsAndClears : Obligations.FlushEmitsAndClears := by
  intro s hroom
  rw [exec_accepted (accepts_flush_iff.2 hroom), performed, State.flushAll_eq]
  simp only [List.flatMap_map, List.foldl_map]
  rfl

/-- Settles O33: all `fill` emissions are `Flushed`, with `n` bytes and `n` flags 1 each. -/
theorem flushCodewordsAreFlushed : Obligations.FlushCodewordsAreFlushed := by
  intro s hs hroom
  obtain ⟨-, hfill, -, -, -, -, -, -, -, hfit⟩ := hs
  have ha := accepts_flush_iff.2 hroom
  have hall := fun e (he : e ∈ emissions .flush s) => emissions_flush_flushed hfill he
  refine ⟨_, exec_accepted ha, ?_, ?_, ?_⟩
  · rw [State.reply_cnt, performed_cnt ha, if_neg (by simp),
      countAll_flushed (fun e he => (hall e he).1) hfit, emissions_flush_length ha]
  · rw [State.reply_qe, performed_qe ha, if_neg (by simp),
      flatMap_replicate fun e he => (hall e he).2, emissions_flush_length ha]
  · rw [State.reply_qd, performed_qd ha, if_neg (by simp), List.length_append,
      length_flatMap fun e he => (emissions_length he).1, emissions_flush_length ha]

end Sys2Proof
end

section
/-! Proofs about the bank and the stream it holds (spec/42_deinterleaver.md R140 to R151): the
invariant of R146 over every command, and the codewords a push and a flush read off it. -/

namespace Sys2Proof.Machine

/-! ### The stream -/

theorem pushedSymbol_append_of_lt {hist : List (List Symbol)} {t : Nat} (x : List Symbol) (i : Nat)
    (h : t < hist.length) : pushedSymbol (hist ++ [x]) t i = pushedSymbol hist t i := by
  rw [pushedSymbol, List.getD_append _ _ _ _ h, pushedSymbol]

theorem pushedSymbol_append_length (hist : List (List Symbol)) (x : List Symbol) (i : Nat) :
    pushedSymbol (hist ++ [x]) hist.length i = x.getD i Symbol.vacant := by
  simp [pushedSymbol]

/-! ### The bank holds the stream -/

theorem bankHolds_congr {s t : State} {hist : List (List Symbol)} (hcfg : t.cfg = s.cfg)
    (hfill : t.fill = s.fill) (hcells : t.cells = s.cells) (h : s.BankHolds hist) :
    t.BankHolds hist := by
  obtain ⟨hf, hc⟩ := h
  refine ⟨by rw [hfill, hcfg, hf], ?_⟩
  rw [hcfg]
  intro i hi j hj
  rw [State.cell_congr hcells, hc i hi j hj]

/-- An empty bank holds the empty stream (R23). -/
theorem bankHolds_nil {s : State} (h : s.fill = 0) : s.BankHolds [] :=
  ⟨by simp [h], fun i _ j hj => by simp at hj⟩

/-- A push adds its codeword to the stream (R143, R146). -/
theorem performed_pushC1_bankHolds {s : State} {hist : List (List Symbol)} (data : List Byte)
    (flags : List Bool) (h : s.BankHolds hist) :
    (performed (.pushC1 data flags) s).BankHolds (hist ++ [symbols data flags]) := by
  obtain ⟨hfill, hcells⟩ := h
  refine ⟨?_, ?_⟩
  · rw [performed_fill, performed_cfg, hfill, List.length_append, List.length_singleton]
    dsimp only
    omega
  · rw [performed_cfg, List.length_append, List.length_singleton]
    intro i hi j hj
    rw [performed_pushC1_cell data flags hi (by omega)]
    cases j with
    | zero => rw [if_pos rfl, Nat.add_sub_cancel, Nat.sub_zero, pushedSymbol_append_length]
    | succ j =>
      rw [if_neg (Nat.succ_ne_zero j), Nat.add_sub_cancel, Nat.add_sub_cancel,
        hcells i hi j (by omega), pushedSymbol_append_of_lt _ _ (by omega)]
      congr 1
      omega

/-- Every command keeps the bank in step with the stream (R146). -/
theorem exec_bankHolds {i : Instr} {s t : State} {hist : List (List Symbol)}
    (h : s.BankHolds hist) (ht : exec i s = .next t) : t.BankHolds (streamAfter i s hist) := by
  rcases exec_cases ht with ⟨ha, rfl⟩ | ⟨ha, rfl⟩
  · refine bankHolds_congr (s := performed i s) rfl rfl rfl ?_
    cases i with
    | pushC1 data flags =>
      rw [streamAfter, if_pos ha]
      exact performed_pushC1_bankHolds data flags h
    | flush =>
      rw [streamAfter, if_pos ha]
      exact bankHolds_nil (performed_fill ..)
    | reset => exact bankHolds_nil (performed_fill ..)
    | _ => exact h
  · refine bankHolds_congr (s := s) rfl rfl rfl ?_
    cases i with
    | pushC1 data flags => rwa [streamAfter, ha]
    | flush => rwa [streamAfter, ha]
    | _ => simp [accepts] at ha

/-! ### The codewords read off the bank -/

/-- The codeword tapped by push number `N ≥ Dmax` is the aligned one `m = N - Dmax`, the incoming
symbols included (R140, R142, R147). -/
theorem tap_eq_alignedCodeword {s : State} {hist : List (List Symbol)} (sym : List Symbol)
    (h : s.BankHolds hist) (hN : s.cfg.dmax ≤ hist.length) :
    s.tap sym = alignedCodeword s.cfg (hist ++ [sym]) (hist.length - s.cfg.dmax) := by
  refine List.map_congr_left fun i hi => ?_
  rw [List.mem_range] at hi
  have hline := s.cfg.lineLen_add_d i
  split
  · next hzero =>
    have hlast : hist.length - s.cfg.dmax + s.cfg.d i = hist.length := by omega
    rw [hlast, pushedSymbol_append_length]
  · next hpos =>
    rw [h.2 i hi _ (by omega), pushedSymbol_append_of_lt _ _ (by omega)]
    congr 1
    omega

/-- The symbol missing from flush codeword `u` is the one never pushed (R150). -/
theorem missingAt_iff_of_bankHolds {s : State} {hist : List (List Symbol)} (h : s.BankHolds hist)
    {u : Nat} (i : Nat) :
    missingAt s.cfg s.fill u i = true ↔
      hist.length ≤ hist.length - s.cfg.dmax + u + s.cfg.d i := by
  have hfill := h.1
  rw [missingAt_iff]
  omega

/-- Flush codeword `u` is codeword `m = max(N - Dmax, 0) + u` of the stream, cut off where it ends
(R150). -/
theorem ftap_eq_truncatedCodeword {s : State} {hist : List (List Symbol)} (h : s.BankHolds hist)
    (u : Nat) :
    s.ftap s.fill u = truncatedCodeword s.cfg hist (hist.length - s.cfg.dmax + u) := by
  refine List.map_congr_left fun i hi => ?_
  rw [List.mem_range] at hi
  have hmiss := missingAt_iff_of_bankHolds h (u := u) i
  have hline := s.cfg.lineLen_add_d i
  have hfill := h.1
  split
  · next hm => rw [if_neg (not_lt.2 (hmiss.1 hm))]
  · next hm =>
    rw [hmiss, not_le] at hm
    rw [if_pos hm, h.2 i hi _ (by omega)]
    congr 1
    omega

theorem ftapMiss_eq_filter {s : State} {hist : List (List Symbol)} (h : s.BankHolds hist)
    (u : Nat) :
    ftapMiss s.cfg s.fill u = (List.range s.cfg.nSym).filter fun i =>
      hist.length ≤ hist.length - s.cfg.dmax + u + s.cfg.d i := by
  refine List.filter_congr fun i _ => ?_
  rw [Bool.eq_iff_iff, missingAt_iff_of_bankHolds h, decide_eq_true_eq]

/-- The emissions of a flush, by the stream (R150, R185). -/
theorem emissions_flush_of_bankHolds {s : State} {hist : List (List Symbol)} (h : s.BankHolds hist)
    (ha : accepts .flush s = true) :
    emissions .flush s = (List.range (min hist.length s.cfg.dmax)).map fun u =>
      emission s.cfg (truncatedCodeword s.cfg hist (hist.length - s.cfg.dmax + u))
        ((List.range s.cfg.nSym).filter fun i =>
          hist.length ≤ hist.length - s.cfg.dmax + u + s.cfg.d i) := by
  have hrange : List.range s.fill = List.range (min hist.length s.cfg.dmax) := congrArg _ h.1
  rw [emissions_flush ha, hrange]
  refine List.map_congr_left fun u _ => ?_
  rw [State.flushEmission, ftap_eq_truncatedCodeword h, ftapMiss_eq_filter h]

end Sys2Proof.Machine

namespace Sys2Proof

open Machine

/-- Settles O44: at power-on the bank is empty, and `exec_bankHolds`. -/
theorem bankHoldsTheStream : Obligations.BankHoldsTheStream :=
  ⟨fun _ _ => bankHolds_nil rfl, fun _ _ _ _ h ht => exec_bankHolds h ht⟩

/-- Settles O45: the bank is primed exactly when `N ≥ Dmax`, and then the codeword tapped is the
aligned one. -/
theorem pushEmitsAlignedCodeword : Obligations.PushEmitsAlignedCodeword := by
  intro s data flags hist h ha
  have hfill := h.1
  refine ⟨_, exec_accepted ha, fun hN => ?_, fun hN => ?_⟩
  · have hshift := performed_pushC1_of_not_primed data flags (s := s) (by omega)
    rw [State.reply_qd, State.reply_qe, State.reply_cnt, hshift]
    exact ⟨rfl, rfl, rfl⟩
  · have hemit := performed_pushC1_of_primed data flags (s := s) (by omega)
    rw [tap_eq_alignedCodeword _ h hN] at hemit
    rw [State.reply_qd, State.reply_qe, State.reply_cnt, hemit]
    exact ⟨rfl, rfl, rfl⟩

/-- Settles O46: the emissions of an accepted flush, by `emissions_flush_of_bankHolds`. -/
theorem flushEmitsRemainingCodewords : Obligations.FlushEmitsRemainingCodewords := by
  intro s hist h hroom
  have ha := accepts_flush_iff.2 hroom
  have hqd := performed_qd ha
  have hqe := performed_qe ha
  have hcnt := performed_cnt ha
  rw [emissions_flush_of_bankHolds h ha, if_neg (by simp)] at hqd hqe hcnt
  exact ⟨_, exec_accepted ha, hqd, hqe, hcnt⟩

end Sys2Proof
end

section
/-! Proof that vacant cells are unobservable (spec/10_state.md R22): two states that differ only in
vacant cells accept the same commands, read the same codewords off the bank, and are taken by every
command to two such states. -/

namespace Sys2Proof.Machine

theorem State.eq_withCells_iff {s t : State} :
    t = { s with cells := t.cells } ↔
      t.cfg = s.cfg ∧ t.fill = s.fill ∧ t.phase = s.phase ∧ t.cnt = s.cnt ∧ t.qd = s.qd ∧
        t.qe = s.qe ∧ t.inbox = s.inbox ∧ t.outbox = s.outbox ∧ t.diag = s.diag := by
  obtain ⟨⟩ := s
  obtain ⟨⟩ := t
  simp

/-! ### What two agreeing states have in common -/

section Agree

variable {s t : State} (h : AgreeOnValid s t)
include h

theorem agree_accepts (i : Instr) : accepts i t = accepts i s := by
  rw [h.1]
  cases i <;> rfl

theorem agree_answer (i : Instr) : answer i t = answer i s := by
  rw [h.1]
  cases i <;> rfl

theorem agree_refusal (i : Instr) : refusal i t = refusal i s := by
  rw [h.1]
  cases i <;> rfl

theorem agree_cfg : t.cfg = s.cfg := (State.eq_withCells_iff.1 h.1).1

theorem agree_fill : t.fill = s.fill := (State.eq_withCells_iff.1 h.1).2.1

theorem agree_cell {i j : Nat} (hi : i < s.cfg.nSym) (hj : j < s.cfg.lineLen i)
    (hv : j < s.fill) : t.cell i j = s.cell i j :=
  (h.2.2.2 i hi j hj (State.valid_iff.2 hv)).symm

/-- A primed bank has no vacant cell, so the same codeword is tapped (R142). -/
theorem agree_tap (sym : List Symbol) (hp : s.fill = s.cfg.dmax) : t.tap sym = s.tap sym := by
  rw [State.tap, State.tap, agree_cfg h]
  refine List.map_congr_left fun i hi => ?_
  rw [List.mem_range] at hi
  split
  · rfl
  · next hpos =>
    have hle := s.cfg.lineLen_le_dmax i
    exact agree_cell h hi (by omega) (by omega)

/-- A flush codeword reads cells below `fill` only (R150). -/
theorem agree_ftap (hfill : s.fill ≤ s.cfg.dmax) (u : Nat) :
    t.ftap s.fill u = s.ftap s.fill u := by
  rw [State.ftap, State.ftap, agree_cfg h]
  refine List.map_congr_left fun i hi => ?_
  rw [List.mem_range] at hi
  split
  · rfl
  · next hm =>
    rw [missingAt_iff, not_lt] at hm
    have hline := s.cfg.lineLen_add_d i
    exact agree_cell h hi (by omega) (by omega)

theorem agree_emittedCodewords (hfill : s.fill ≤ s.cfg.dmax) (i : Instr) :
    emittedCodewords i t = emittedCodewords i s := by
  have hprimed : t.primed = s.primed := by
    rw [State.primed, State.primed, agree_fill h, agree_cfg h]
  cases i with
  | pushC1 data flags =>
    rw [emittedCodewords, emittedCodewords, hprimed]
    split
    · next hp => rw [agree_tap h _ (State.primed_iff.1 hp)]
    · rfl
  | flush =>
    rw [emittedCodewords, emittedCodewords, agree_fill h]
    exact List.map_congr_left fun u _ => by rw [agree_ftap h hfill, agree_cfg h]
  | _ => rfl

theorem agree_emissions (hfill : s.fill ≤ s.cfg.dmax) (i : Instr) :
    emissions i t = emissions i s := by
  rw [emissions, emissions, agree_accepts h, agree_emittedCodewords h hfill, agree_cfg h]

/-! ### Agreement is kept -/

/-- What a command does to valid cells depends on valid cells alone (R143, R151). -/
theorem agree_performed_cell (i : Instr) :
    ∀ l < s.cfg.nSym, ∀ j < s.cfg.lineLen l, j < (performed i s).fill →
      (performed i t).cell l j = (performed i s).cell l j := by
  intro l hl j hj hv
  have hcfg := agree_cfg h
  cases i with
  | pushC1 data flags =>
    rw [performed_fill] at hv
    dsimp only at hv
    rw [performed_pushC1_cell data flags hl hj,
      performed_pushC1_cell data flags (by rwa [hcfg]) (by rwa [hcfg])]
    split
    · rfl
    · exact agree_cell h hl (by omega) (by omega)
  | flush => exact absurd hv (by simp [performed_fill])
  | reset => exact absurd hv (by simp [performed_fill])
  | _ => exact agree_cell h hl hj hv

theorem agree_performed (hfill : s.fill ≤ s.cfg.dmax) {i : Instr} (ha : accepts i s = true) :
    AgreeOnValid (performed i s) (performed i t) := by
  obtain ⟨hcfg, hfl, hphase, hcnt, hqd, hqe, hin, hout, hdiag⟩ := State.eq_withCells_iff.1 h.1
  have hem := agree_emissions h hfill i
  have hat : accepts i t = true := (agree_accepts h i).trans ha
  have hcells := agree_performed_cell h i
  obtain ⟨-, hs, ht, -⟩ := h
  refine ⟨State.eq_withCells_iff.2 ⟨?_, ?_, ?_, ?_, ?_, ?_, ?_, ?_, ?_⟩,
    performed_bankShape i hs, performed_bankShape i ht, ?_⟩
  · rw [performed_cfg, performed_cfg, hcfg]
  · rw [performed_fill, performed_fill, hfl, hcfg]
  · rw [performed_phase, performed_phase, hphase]
  · rw [performed_cnt hat, performed_cnt ha, hem, hcnt, hcfg]
  · rw [performed_qd hat, performed_qd ha, hem, hqd]
  · rw [performed_qe hat, performed_qe ha, hem, hqe]
  · rw [performed_inbox, performed_inbox, hin]
  · rw [performed_outbox, performed_outbox, hout]
  · rw [performed_diag, performed_diag, hdiag, hcnt]
  · rw [performed_cfg]
    exact fun l hl j hj hv => (hcells l hl j hj (State.valid_iff.1 hv)).symm

theorem agree_reply (r : Response) : AgreeOnValid (s.reply r) (t.reply r) := by
  obtain ⟨heq, hs, ht, hcells⟩ := h
  exact ⟨congrArg (State.reply r) heq, hs, ht, hcells⟩

theorem agree_withInbox (b : List Frame) :
    AgreeOnValid { s with inbox := b } { t with inbox := b } := by
  obtain ⟨heq, hs, ht, hcells⟩ := h
  exact ⟨congrArg (fun u : State => { u with inbox := b }) heq, hs, ht, hcells⟩

theorem agree_exec (hfill : s.fill ≤ s.cfg.dmax) {i : Instr} {s' t' : State}
    (hs : exec i s = .next s') (ht : exec i t = .next t') : AgreeOnValid s' t' := by
  cases ha : accepts i s with
  | true =>
    rw [exec_accepted ha] at hs
    rw [exec_accepted ((agree_accepts h i).trans ha), agree_answer h] at ht
    obtain rfl := Host.Outcome.next.inj hs
    obtain rfl := Host.Outcome.next.inj ht
    exact agree_reply (agree_performed h hfill ha) _
  | false =>
    rw [exec_refused ha] at hs
    rw [exec_refused ((agree_accepts h i).trans ha), agree_refusal h] at ht
    obtain rfl := Host.Outcome.next.inj hs
    obtain rfl := Host.Outcome.next.inj ht
    exact agree_reply h _

theorem agree_command (hfill : s.fill ≤ s.cfg.dmax) {F : Frame} {s' t' : State}
    (hs : command F s = .next s') (ht : command F t = .next t') : AgreeOnValid s' t' := by
  cases hdec : decode F with
  | ok i =>
    rw [command_of_ok _ hdec] at hs ht
    exact agree_exec h hfill hs ht
  | error st =>
    rw [command_of_error _ hdec] at hs ht
    obtain rfl := Host.Outcome.next.inj hs
    obtain rfl := Host.Outcome.next.inj ht
    exact agree_reply h _

end Agree

end Sys2Proof.Machine

namespace Sys2Proof

open Machine

/-- Settles O47: both states take the same frame, and `agree_command`. -/
theorem vacantCellsUnobservable : Obligations.VacantCellsUnobservable := by
  intro s t s' t' hfill h hs ht
  have hin : t.inbox = s.inbox := by rw [h.1]
  cases hq : s.inbox with
  | nil =>
    rw [step_nil hq] at hs
    rw [step_nil (hin.trans hq)] at ht
    obtain rfl := Host.Outcome.next.inj hs
    obtain rfl := Host.Outcome.next.inj ht
    exact h
  | cons F rest =>
    rw [step_cons hq] at hs
    rw [step_cons (hin.trans hq)] at ht
    exact agree_command (agree_withInbox h rest) hfill hs ht

end Sys2Proof
end

section
/-! Proofs about what every command keeps (spec/10_state.md R26, R32; spec/42_deinterleaver.md R149;
spec/43_orchestrator.md R168, R169; spec/70_reset_and_hazards.md R237): the invariant, the counters,
the output stream, and the account of pushes. -/

namespace Sys2Proof.Machine

/-! ### Counters -/

/-- Every counter is at most `cmax` (R26). -/
def Counters.Fits (cmax : Nat) (c : Counters) : Prop :=
  c.passed ≤ cmax ∧ c.corrected ≤ cmax ∧ c.failed ≤ cmax ∧ c.flushed ≤ cmax

theorem State.countersFit_iff {s : State} : s.CountersFit ↔ s.cnt.Fits s.cfg.cmax := Iff.rfl

/-- No counter of `c` exceeds that of `c'`. -/
def Counters.Le (c c' : Counters) : Prop :=
  c.passed ≤ c'.passed ∧ c.corrected ≤ c'.corrected ∧ c.failed ≤ c'.failed ∧
    c.flushed ≤ c'.flushed

theorem Counters.Le.refl (c : Counters) : c.Le c := ⟨le_rfl, le_rfl, le_rfl, le_rfl⟩

theorem Counters.Le.trans {a b c : Counters} (hab : a.Le b) (hbc : b.Le c) : a.Le c := by
  obtain ⟨h1, h2, h3, h4⟩ := hab
  obtain ⟨g1, g2, g3, g4⟩ := hbc
  exact ⟨h1.trans g1, h2.trans g2, h3.trans g3, h4.trans g4⟩

/-- Every counter is below `cmax`: none is saturated (R169). -/
def Counters.Below (cmax : Nat) (c : Counters) : Prop :=
  c.passed < cmax ∧ c.corrected < cmax ∧ c.failed < cmax ∧ c.flushed < cmax

theorem Counters.bump_fits {cmax : Nat} {c : Counters} (o : CodewordOutcome) (h : c.Fits cmax) :
    (c.bump cmax o).Fits cmax := by
  obtain ⟨h1, h2, h3, h4⟩ := h
  have hsat := saturatingIncr_le cmax
  cases o with
  | passed => exact ⟨hsat _, h2, h3, h4⟩
  | corrected => exact ⟨h1, hsat _, h3, h4⟩
  | failed => exact ⟨h1, h2, hsat _, h4⟩
  | flushed => exact ⟨h1, h2, h3, hsat _⟩

theorem Counters.le_bump {cmax : Nat} {c : Counters} (o : CodewordOutcome) (h : c.Fits cmax) :
    c.Le (c.bump cmax o) := by
  obtain ⟨h1, h2, h3, h4⟩ := h
  cases o with
  | passed => exact ⟨le_saturatingIncr h1, le_rfl, le_rfl, le_rfl⟩
  | corrected => exact ⟨le_rfl, le_saturatingIncr h2, le_rfl, le_rfl⟩
  | failed => exact ⟨le_rfl, le_rfl, le_saturatingIncr h3, le_rfl⟩
  | flushed => exact ⟨le_rfl, le_rfl, le_rfl, le_saturatingIncr h4⟩

/-- A count that ends unsaturated started unsaturated and added one (R26, R169). -/
theorem Counters.total_bump {cmax : Nat} {c : Counters} {o : CodewordOutcome}
    (h : (c.bump cmax o).Below cmax) : c.Below cmax ∧ (c.bump cmax o).total = c.total + 1 := by
  obtain ⟨h1, h2, h3, h4⟩ := h
  cases o with
  | passed =>
    have hv := saturatingIncr_of_lt h1
    simp only [Counters.bump_passed, Counters.total, Counters.Below] at *
    omega
  | corrected =>
    have hv := saturatingIncr_of_lt h2
    simp only [Counters.bump_corrected, Counters.total, Counters.Below] at *
    omega
  | failed =>
    have hv := saturatingIncr_of_lt h3
    simp only [Counters.bump_failed, Counters.total, Counters.Below] at *
    omega
  | flushed =>
    have hv := saturatingIncr_of_lt h4
    simp only [Counters.bump_flushed, Counters.total, Counters.Below] at *
    omega

theorem Counters.countAll_cons (cmax : Nat) (e : Emission) (es : List Emission) (c : Counters) :
    c.countAll cmax (e :: es) = (c.bump cmax e.outcome).countAll cmax es := rfl

theorem Counters.countAll_fits {cmax : Nat} (es : List Emission) {c : Counters}
    (h : c.Fits cmax) : (c.countAll cmax es).Fits cmax ∧ c.Le (c.countAll cmax es) := by
  induction es generalizing c with
  | nil => exact ⟨h, .refl c⟩
  | cons e es ih =>
    rw [Counters.countAll_cons]
    obtain ⟨hfits, hle⟩ := ih (Counters.bump_fits e.outcome h)
    exact ⟨hfits, (Counters.le_bump e.outcome h).trans hle⟩

/-- Emissions counted without saturation add up (R169). -/
theorem Counters.total_countAll {cmax : Nat} {es : List Emission} {c : Counters}
    (h : (c.countAll cmax es).Below cmax) :
    c.Below cmax ∧ (c.countAll cmax es).total = c.total + es.length := by
  induction es generalizing c with
  | nil => exact ⟨h, rfl⟩
  | cons e es ih =>
    rw [Counters.countAll_cons] at h ⊢
    obtain ⟨hbelow, htotal⟩ := ih h
    obtain ⟨hstart, hone⟩ := Counters.total_bump hbelow
    exact ⟨hstart, by rw [htotal, hone, List.length_cons]; omega⟩

theorem Counters.zero_fits (cmax : Nat) : Counters.zero.Fits cmax :=
  ⟨Nat.zero_le _, Nat.zero_le _, Nat.zero_le _, Nat.zero_le _⟩

/-- An accepted command keeps the counters within their width (R26, R32). -/
theorem performed_countersFit {i : Instr} {s : State} (ha : accepts i s = true)
    (h : s.CountersFit) : (performed i s).CountersFit := by
  rw [State.countersFit_iff, performed_cnt ha, performed_cfg]
  split
  · exact Counters.zero_fits _
  · exact (Counters.countAll_fits _ h).1

/-! ### The invariant -/

theorem performed_fill_le (i : Instr) {s : State} (h : s.fill ≤ s.cfg.dmax) :
    (performed i s).fill ≤ s.cfg.dmax := by
  cases i with
  | pushC1 data flags => exact (performed_fill ..).trans_le (Nat.min_le_right ..)
  | flush => exact (performed_fill ..).trans_le (Nat.zero_le _)
  | reset => exact (performed_fill ..).trans_le (Nat.zero_le _)
  | _ => exact h

/-- `FLUSHED` keeps its empty bank, since no push is accepted then (R24, R205). -/
theorem performed_fill_of_flushed {i : Instr} {s : State} (ha : accepts i s = true)
    (h : s.phase = .flushed → s.fill = 0) (hp : (performed i s).phase = .flushed) :
    (performed i s).fill = 0 := by
  cases i with
  | pushC1 data flags =>
    have hrun := (accepts_pushC1_iff.1 ha).2.1
    rw [performed_phase] at hp
    simp [hrun] at hp
  | flush => exact performed_fill ..
  | reset => exact performed_fill ..
  | _ => exact h hp

theorem dvd_length_append_flatMap {α : Type} {n : Nat} {q : List α} {es : List Emission}
    {f : Emission → List α} (hq : n ∣ q.length) (hf : ∀ e ∈ es, (f e).length = n) :
    n ∣ (q ++ es.flatMap f).length := by
  rw [List.length_append, length_flatMap hf]
  exact dvd_add hq (dvd_mul_left ..)

/-- Both FIFOs stay within `QCAP` (R32, R181). -/
theorem performed_room {i : Instr} {s : State} (ha : accepts i s = true)
    (h : s.room 0 = true) : (performed i s).room 0 = true := by
  have hroom := room_of_accepts ha h
  have hd := length_flatMap fun e he => (emissions_length (i := i) (s := s) (e := e) he).1
  have he := length_flatMap fun e he => (emissions_length (i := i) (s := s) (e := e) he).2
  rw [State.room_iff] at hroom ⊢
  rw [performed_cfg, performed_qd ha, performed_qe ha]
  intro q hq
  obtain ⟨hqd, hqe⟩ := hroom q hq
  refine ⟨?_, ?_⟩
  · split
    · simp
    · rw [List.length_append, hd]
      omega
  · split
    · simp
    · rw [List.length_append, he]
      omega

theorem performed_inv {i : Instr} {s : State} (ha : accepts i s = true) (h : s.Inv) :
    (performed i s).Inv := by
  obtain ⟨hshape, hfill, hflushed, hqd, hqe, hroom, hcnt⟩ := h
  refine ⟨performed_bankShape i hshape, ?_, performed_fill_of_flushed ha hflushed, ?_, ?_,
    performed_room ha hroom, performed_countersFit ha hcnt⟩
  · rw [performed_cfg]
    exact performed_fill_le i hfill
  · rw [performed_cfg, performed_qd ha]
    split
    · exact dvd_zero _
    · exact dvd_length_append_flatMap hqd fun e he => (emissions_length he).1
  · rw [performed_cfg, performed_qe ha]
    split
    · exact dvd_zero _
    · exact dvd_length_append_flatMap hqe fun e he => (emissions_length he).2

/-- The invariant does not speak of the interface. -/
theorem reply_inv {s : State} (r : Response) (h : s.Inv) : (s.reply r).Inv := h

theorem command_inv {F : Frame} {s t : State} (h : s.Inv) (ht : command F s = .next t) : t.Inv := by
  rcases command_cases ht with ⟨i, -, ha, rfl⟩ | ⟨st, -, rfl⟩
  · exact reply_inv _ (performed_inv ha h)
  · exact reply_inv _ h

theorem step_inv {s t : State} (h : s.Inv) (ht : step s = .next t) : t.Inv := by
  rcases step_cases ht with ⟨-, rfl⟩ | ⟨F, rest, -, hcmd⟩
  · exact h
  · exact command_inv (s := { s with inbox := rest }) h hcmd

theorem powerOn_inv (cfg : Config) (hc : cfg.wf = true) : (State.powerOn cfg hc).Inv := by
  refine ⟨State.powerOn_bankShape cfg hc, Nat.zero_le _, fun _ => rfl, dvd_zero _,
    dvd_zero _, ?_, Counters.zero_fits _⟩
  exact State.room_iff.2 fun q _ => ⟨Nat.zero_le q, Nat.zero_le q⟩

/-! ### The output stream -/

theorem pulledData_append (out : List Response) (r : Response) :
    pulledData (out ++ [r]) = pulledData out ++ pulledData [r] := List.flatMap_append

theorem pulledFlags_append (out : List Response) (r : Response) :
    pulledFlags (out ++ [r]) = pulledFlags out ++ pulledFlags [r] := List.flatMap_append

/-- Only `PULL_DATA` answers data bytes, the whole of `QD` (R67, R182). -/
theorem pulledData_answer (i : Instr) (s : State) (st : Status) :
    pulledData [⟨st, answer i s⟩] = if i = .pullData then s.qd else [] := by
  cases i with
  | pullData => exact List.append_nil _
  | _ => rfl

/-- Only `PULL_ERR` answers flags, the whole of `QE` (R67, R183). -/
theorem pulledFlags_answer (i : Instr) (s : State) (st : Status) :
    pulledFlags [⟨st, answer i s⟩] = if i = .pullErr then s.qe else [] := by
  cases i with
  | pullErr => exact List.append_nil _
  | _ => rfl

/-! ### The account of pushes -/

theorem State.unsaturated_iff_below {s : State} :
    s.unsaturated = true ↔ s.cnt.Below s.cfg.cmax := State.unsaturated_iff

theorem accounts_congr {s t : State} {N : Nat} (hcfg : t.cfg = s.cfg) (hfill : t.fill = s.fill)
    (hphase : t.phase = s.phase) (hcnt : t.cnt = s.cnt) (h : s.Accounts N) : t.Accounts N := by
  unfold State.Accounts
  rwa [hcfg, hfill, hphase, hcnt]

/-- The number of codewords a push emits: one once `Dmax` pushes are in the bank (R144). -/
theorem emissions_pushC1_length {data : List Byte} {flags : List Bool} {s : State}
    (h : accepts (.pushC1 data flags) s = true) :
    (emissions (.pushC1 data flags) s).length = if s.fill = s.cfg.dmax then 1 else 0 := by
  rw [emissions_pushC1 h]
  simp only [State.primed_iff]
  split <;> rfl

/-- An accepted command other than `RESET_STATS` keeps the account (R169, R187). -/
theorem performed_accounts {i : Instr} {s : State} {N : Nat} (h : s.Accounts N)
    (hi : i ≠ .resetStats) (ha : accepts i s = true) (hu : (performed i s).unsaturated = true) :
    (performed i s).Accounts (pushesAfter i s N) := by
  obtain ⟨hrun, hflushed⟩ := h
  have hcnt := performed_cnt ha
  rw [State.unsaturated_iff_below, performed_cfg] at hu
  cases i with
  | pushC1 data flags =>
    obtain ⟨-, hp, -⟩ := accepts_pushC1_iff.1 ha
    obtain ⟨hfill, htotal⟩ := hrun hp
    rw [if_neg (by simp)] at hcnt
    have hsum := (Counters.total_countAll (hcnt ▸ hu)).2
    rw [← hcnt, emissions_pushC1_length ha] at hsum
    have hphase : (performed (.pushC1 data flags) s).phase = .run := by
      rw [performed_phase]; simpa using hp
    refine ⟨fun _ => ?_, fun hf => by simp [hphase] at hf⟩
    rw [performed_fill, performed_cfg, hsum, pushesAfter, if_pos ha]
    dsimp only
    by_cases hprimed : s.fill = s.cfg.dmax
    · rw [if_pos hprimed]
      omega
    · rw [if_neg hprimed]
      omega
  | flush =>
    rw [if_neg (by simp)] at hcnt
    have hsum := (Counters.total_countAll (hcnt ▸ hu)).2
    rw [← hcnt, emissions_flush_length ha] at hsum
    have hphase : (performed .flush s).phase = .flushed := by rw [performed_phase, if_pos rfl]
    refine ⟨fun hr => by simp [hphase] at hr, fun _ => ⟨performed_fill .., ?_⟩⟩
    rw [hsum, pushesAfter]
    cases hp : s.phase with
    | run =>
      obtain ⟨hfill, htotal⟩ := hrun hp
      omega
    | flushed =>
      obtain ⟨hfill, htotal⟩ := hflushed hp
      omega
  | reset =>
    rw [if_pos (.inr rfl)] at hcnt
    have hphase : (performed .reset s).phase = .run := performed_phase ..
    refine ⟨fun _ => ?_, fun hf => by simp [hphase] at hf⟩
    rw [performed_fill, performed_cfg, hcnt, pushesAfter]
    simp [Counters.total, Counters.zero]
  | resetStats => exact absurd rfl hi
  | _ => exact ⟨hrun, hflushed⟩

/-- A refused command is no accepted push (R169, R201). -/
theorem pushesAfter_of_refused {i : Instr} {s : State} (N : Nat) (h : accepts i s = false) :
    pushesAfter i s N = N := by
  cases i with
  | pushC1 data flags => simp [pushesAfter, h]
  | reset => simp [accepts] at h
  | _ => rfl

end Sys2Proof.Machine

namespace Sys2Proof

open Machine

/-- `BANK_SIZE = n * Dmax - sum D` (R149). -/
theorem Config.bankSize_add_sum_d (c : Config) :
    c.bankSize + ((List.range c.nSym).map c.d).sum = c.nSym * c.dmax := by
  rw [Config.bankSize, ← List.sum_map_add]
  simp [Config.lineLen_add_d]

/-- Settles O48: line by line `min(fill, L[i]) ≤ L[i]`, and `L[i] + D[i] = Dmax`. -/
theorem bufferedSymbolsBounded : Obligations.BufferedSymbolsBounded := fun s =>
  ⟨List.sum_le_sum fun _ _ => Nat.min_le_right .., s.cfg.bankSize_add_sum_d⟩

/-- Settles O49: `powerOn_inv`; `State.reset` is a power-on state. -/
theorem powerOnMeetsInvariant : Obligations.PowerOnMeetsInvariant :=
  ⟨powerOn_inv, powerOn_inv _ defaultConfig_wf⟩

/-- Settles O50: a step always answers a next state, and `step_inv`. -/
theorem stepKeepsInvariant : Obligations.StepKeepsInvariant := by
  intro s h
  obtain ⟨t, ht⟩ := step_next s
  rw [ht]
  exact step_inv h ht

/-- Settles O53: the counters count emissions, with saturation, unless the frame is that of a
command that clears them. -/
theorem countersNeverDecrease : Obligations.CountersNeverDecrease := by
  intro F s t h ht
  rcases command_cases ht with ⟨i, hdec, ha, rfl⟩ | ⟨st, -, rfl⟩
  · refine ⟨performed_countersFit ha h, fun hstats hreset => ?_⟩
    have hF := (encode_of_decode hdec).2
    have hkeep : ¬ (i = .resetStats ∨ i = .reset) := by
      rintro (rfl | rfl)
      · exact hstats hF.symm
      · exact hreset hF.symm
    rw [State.reply_cnt, performed_cnt ha, if_neg hkeep]
    exact (Counters.countAll_fits _ h).2
  · exact ⟨h, fun _ _ => Counters.Le.refl _⟩

/-- Settles O54: a pull moves its FIFO to the response stream, any other command appends its
emissions to both. -/
theorem outputStreamIsConserved : Obligations.OutputStreamIsConserved := by
  intro i s t hreset ht
  rcases exec_cases ht with ⟨ha, rfl⟩ | ⟨ha, rfl⟩
  · rw [State.reply_outbox, State.reply_qd, State.reply_qe, performed_outbox, performed_qd ha,
      performed_qe ha, pulledData_append, pulledFlags_append, pulledData_answer,
      pulledFlags_answer]
    by_cases hd : i = .pullData
    · subst hd
      simp [emissions, emittedCodewords]
    · by_cases he : i = .pullErr
      · subst he
        simp [emissions, emittedCodewords]
      · simp [hd, he, hreset]
  · rw [emissions_of_refused ha, State.reply_outbox, pulledData_append, pulledFlags_append]
    simp [pulledData, pulledFlags]

/-- Settles O55: every emission has as many bytes as flags, and a reset empties both FIFOs. -/
theorem fifosStayPaired : Obligations.FifosStayPaired := by
  intro i s t hd he hlen ht
  refine ⟨?_, fun u v hu hv => ?_⟩
  · rcases exec_cases ht with ⟨ha, rfl⟩ | ⟨ha, rfl⟩
    · rw [State.reply_qd, State.reply_qe, performed_qd ha, performed_qe ha]
      by_cases hr : i = .reset
      · simp [hr]
      · simp only [hd, he, hr, or_self, if_false, List.length_append, hlen]
        rw [length_flatMap fun e he => (emissions_length he).1,
          length_flatMap fun e he => (emissions_length he).2]
    · exact hlen
  · obtain rfl := Host.Outcome.next.inj ((exec_accepted (i := .pullData) rfl).symm.trans hu)
    obtain rfl := Host.Outcome.next.inj ((exec_accepted (i := .pullErr) rfl).symm.trans hv)
    exact ⟨rfl, rfl⟩

/-- Settles O56: at power-on nothing is pushed or counted, and `performed_accounts`. -/
theorem countersAccountForPushes : Obligations.CountersAccountForPushes := by
  refine ⟨fun cfg hc => ?_, fun i s t N h hi ht hu => ?_⟩
  · exact ⟨fun _ => ⟨(Nat.zero_min _).symm, (Nat.zero_sub _).symm⟩, fun hf => nomatch hf⟩
  · rcases exec_cases ht with ⟨ha, rfl⟩ | ⟨ha, rfl⟩
    · exact accounts_congr (s := performed i s) rfl rfl rfl rfl (performed_accounts h hi ha hu)
    · rw [pushesAfter_of_refused N ha]
      exact accounts_congr (s := s) rfl rfl rfl rfl h

end Sys2Proof
end
